-- ==== Sys2Proof/Word.lean ====
section
/-! DEFINITION. The word types of the block: bytes, 16-bit words, 12-bit immediates, nibbles, register and key numbers
(00_scope.md rules R4, R5, R6, R13). All quantities are unsigned. -/

namespace Sys2Proof

/-- An 8-bit value: a V register, a timer, a byte of memory (00_scope.md rule R4). -/
abbrev Byte := BitVec 8

/-- A 16-bit value: `pc`, `I`, a stack entry, an opcode word (00_scope.md rule R4). -/
abbrev Word := BitVec 16

/-- The 12-bit immediate NNN (00_scope.md rule R13). -/
abbrev Imm12 := BitVec 12

/-- A 4-bit field of an opcode word (00_scope.md rule R13). -/
abbrev Nibble := BitVec 4

/-- The number of a general register, V0 to VF (10_state.md rule R20). -/
abbrev Reg := Fin 16

/-- The number of a key, 0 to 15 (10_state.md rule R36). -/
abbrev Key := Fin 16

/-- VF, the register that doubles as the flag (10_state.md rule R21). -/
abbrev VF : Reg := 15

/-- V0, the register JP V0 adds (40_flow.md rule R129). -/
abbrev V0 : Reg := 0

end Sys2Proof
end

