-- ==== Sys2Proof/Syntax.lean ====
section
/-! DEFINITION. The instructions: one constructor per row of the opcode map (30_encoding.md rule R96), its operands the
fields of that row (30_encoding.md rules R91, R92). -/

namespace Sys2Proof

/-- The 35 instructions. `x` and `y` are register numbers, `nn` an 8-bit and `nnn` a 12-bit immediate, `n` a row count. -/
inductive Instr where
  /-- 00E0 CLS (43_display.md rule R191) -/
  | cls
  /-- 00EE RET (40_flow.md rule R122) -/
  | ret
  /-- 0000 NOP (40_flow.md rule R121) -/
  | nop
  /-- 1NNN JP nnn (40_flow.md rule R123) -/
  | jp (nnn : Imm12)
  /-- 2NNN CALL nnn (40_flow.md rule R124) -/
  | call (nnn : Imm12)
  /-- 3XNN SE Vx, nn (40_flow.md rule R125) -/
  | seImm (x : Reg) (nn : Byte)
  /-- 4XNN SNE Vx, nn (40_flow.md rule R126) -/
  | sneImm (x : Reg) (nn : Byte)
  /-- 5XY0 SE Vx, Vy (40_flow.md rule R127) -/
  | seReg (x y : Reg)
  /-- 9XY0 SNE Vx, Vy (40_flow.md rule R128) -/
  | sneReg (x y : Reg)
  /-- 6XNN LD Vx, nn (41_alu.md rule R141) -/
  | ldImm (x : Reg) (nn : Byte)
  /-- 7XNN ADD Vx, nn (41_alu.md rule R142) -/
  | addImm (x : Reg) (nn : Byte)
  /-- 8XY0 LD Vx, Vy (41_alu.md rule R143) -/
  | ldReg (x y : Reg)
  /-- 8XY1 OR Vx, Vy (41_alu.md rule R144) -/
  | or (x y : Reg)
  /-- 8XY2 AND Vx, Vy (41_alu.md rule R145) -/
  | and (x y : Reg)
  /-- 8XY3 XOR Vx, Vy (41_alu.md rule R146) -/
  | xor (x y : Reg)
  /-- 8XY4 ADD Vx, Vy (41_alu.md rule R147) -/
  | addReg (x y : Reg)
  /-- 8XY5 SUB Vx, Vy (41_alu.md rule R148) -/
  | sub (x y : Reg)
  /-- 8XY6 SHR Vx; `y` is decoded and ignored (41_alu.md rule R149, 30_encoding.md rule R99) -/
  | shr (x y : Reg)
  /-- 8XY7 SUBN Vx, Vy (41_alu.md rule R150) -/
  | subn (x y : Reg)
  /-- 8XYE SHL Vx; `y` is decoded and ignored (41_alu.md rule R151, 30_encoding.md rule R99) -/
  | shl (x y : Reg)
  /-- ANNN LD I, nnn (42_index_memory.md rule R170) -/
  | ldI (nnn : Imm12)
  /-- BNNN JP V0, nnn (40_flow.md rule R129) -/
  | jpV0 (nnn : Imm12)
  /-- CXNN RND Vx, nn (41_alu.md rule R152) -/
  | rnd (x : Reg) (nn : Byte)
  /-- DXYN DRW Vx, Vy, n (43_display.md rule R192) -/
  | drw (x y : Reg) (n : Nat)
  /-- EX9E SKP Vx (44_timer_key_instr.md rule R213) -/
  | skp (x : Reg)
  /-- EXA1 SKNP Vx (44_timer_key_instr.md rule R214) -/
  | sknp (x : Reg)
  /-- FX07 LD Vx, DT (44_timer_key_instr.md rule R210) -/
  | ldVxDt (x : Reg)
  /-- FX15 LD DT, Vx (44_timer_key_instr.md rule R211) -/
  | ldDtVx (x : Reg)
  /-- FX18 LD ST, Vx (44_timer_key_instr.md rule R212) -/
  | ldStVx (x : Reg)
  /-- FX0A LD Vx, K (44_timer_key_instr.md rule R215) -/
  | ldVxKey (x : Reg)
  /-- FX1E ADD I, Vx (42_index_memory.md rule R171) -/
  | addI (x : Reg)
  /-- FX29 LD F, Vx (42_index_memory.md rule R172) -/
  | ldF (x : Reg)
  /-- FX33 LD B, Vx (42_index_memory.md rule R173) -/
  | ldB (x : Reg)
  /-- FX55 LD [I], Vx; `x` names the last register of the range (42_index_memory.md rule R174) -/
  | storeRegs (x : Reg)
  /-- FX65 LD Vx, [I]; `x` names the last register of the range (42_index_memory.md rule R175) -/
  | loadRegs (x : Reg)
  deriving DecidableEq, Repr

end Sys2Proof
end

