-- ==== Sys2Proof/WellFormed.lean ====
section
/-! DEFINITION. Which terms of Instr the encoding can express. Register numbers and immediates are bounded by their
types; the one check left is the row count N of DRW, a 4-bit field (30_encoding.md rule R92). -/

namespace Sys2Proof

/-- Every field fits the bits the encoding gives it (30_encoding.md rules R91, R92). -/
def Instr.wellFormed : Instr → Bool
  | .drw _ _ n => decide (n ≤ 15)
  | .cls | .ret | .nop | .jp _ | .call _ | .jpV0 _ | .ldI _ => true
  | .seImm _ _ | .sneImm _ _ | .ldImm _ _ | .addImm _ _ | .rnd _ _ => true
  | .seReg _ _ | .sneReg _ _ | .ldReg _ _ | .or _ _ | .and _ _ | .xor _ _ | .addReg _ _ | .sub _ _ | .shr _ _
  | .subn _ _ | .shl _ _ => true
  | .skp _ | .sknp _ | .ldVxDt _ | .ldDtVx _ | .ldStVx _ | .ldVxKey _ | .addI _ | .ldF _ | .ldB _ | .storeRegs _
  | .loadRegs _ => true

end Sys2Proof
end

