-- ==== Sys2Proof/Decode.lean ====
section
/-! DEFINITION. The decoder (30_encoding.md rules R90 to R99), total on any bytes, and after it the encoder written from the
same formats (30_encoding.md rules R91, R96, R100), and the opcode map as a table. -/

namespace Sys2Proof

/-! ### Fields of an opcode word -/

/-- The class `op[15:12]` (00_scope.md rule R13). -/
def classOf (op : Word) : Nibble := op.extractLsb' 12 4

/-- `X = op[11:8]`, a register number (30_encoding.md rule R92). -/
def fieldX (op : Word) : Reg := (op.extractLsb' 8 4).toFin

/-- `Y = op[7:4]`, a register number (30_encoding.md rule R92). -/
def fieldY (op : Word) : Reg := (op.extractLsb' 4 4).toFin

/-- `N = op[3:0]` (30_encoding.md rule R92). -/
def fieldN (op : Word) : Nibble := op.extractLsb' 0 4

/-- `NN = op[7:0]` (30_encoding.md rule R92). -/
def fieldNN (op : Word) : Byte := op.extractLsb' 0 8

/-- `NNN = op[11:0]` (30_encoding.md rule R92). -/
def fieldNNN (op : Word) : Imm12 := op.extractLsb' 0 12

/-! ### Decoding -/

/-- What a word or a run of bytes decodes to. -/
inductive Decoded where
  /-- the word matches exactly one row of the opcode map -/
  | instr (i : Instr)
  /-- no row matches: executing it is the decode failure (30_encoding.md rule R97) -/
  | illegal (op : Word)
  /-- fewer than two bytes: no instruction is that short (30_encoding.md rule R90) -/
  | truncated
  deriving DecidableEq, Repr

/-- Second level of class 0x0: the whole word counts (30_encoding.md rules R94, R95). -/
def decodeClass0 (op : Word) : Decoded :=
  if op = 0x00E0 then .instr .cls
  else if op = 0x00EE then .instr .ret
  else if op = 0x0000 then .instr .nop
  else .illegal op

/-- Second level of class 0x8: the low nibble (30_encoding.md rule R94). -/
def decodeClass8 (op : Word) : Decoded :=
  let x := fieldX op
  let y := fieldY op
  match (fieldN op).toNat with
  | 0x0 => .instr (.ldReg x y)
  | 0x1 => .instr (.or x y)
  | 0x2 => .instr (.and x y)
  | 0x3 => .instr (.xor x y)
  | 0x4 => .instr (.addReg x y)
  | 0x5 => .instr (.sub x y)
  | 0x6 => .instr (.shr x y)
  | 0x7 => .instr (.subn x y)
  | 0xE => .instr (.shl x y)
  | _ => .illegal op

/-- Second level of class 0xE: the low byte (30_encoding.md rules R94, R95). -/
def decodeClassE (op : Word) : Decoded :=
  match (fieldNN op).toNat with
  | 0x9E => .instr (.skp (fieldX op))
  | 0xA1 => .instr (.sknp (fieldX op))
  | _ => .illegal op

/-- Second level of class 0xF: the low byte (30_encoding.md rule R94). -/
def decodeClassF (op : Word) : Decoded :=
  let x := fieldX op
  match (fieldNN op).toNat with
  | 0x07 => .instr (.ldVxDt x)
  | 0x0A => .instr (.ldVxKey x)
  | 0x15 => .instr (.ldDtVx x)
  | 0x18 => .instr (.ldStVx x)
  | 0x1E => .instr (.addI x)
  | 0x29 => .instr (.ldF x)
  | 0x33 => .instr (.ldB x)
  | 0x55 => .instr (.storeRegs x)
  | 0x65 => .instr (.loadRegs x)
  | _ => .illegal op

/-- First level: the class selects (30_encoding.md rule R93). 5XY0 and 9XY0 require a low nibble of 0 (rule R95). -/
def decodeWord (op : Word) : Decoded :=
  let x := fieldX op
  let y := fieldY op
  match (classOf op).toNat with
  | 0x0 => decodeClass0 op
  | 0x1 => .instr (.jp (fieldNNN op))
  | 0x2 => .instr (.call (fieldNNN op))
  | 0x3 => .instr (.seImm x (fieldNN op))
  | 0x4 => .instr (.sneImm x (fieldNN op))
  | 0x5 => if fieldN op = 0 then .instr (.seReg x y) else .illegal op
  | 0x6 => .instr (.ldImm x (fieldNN op))
  | 0x7 => .instr (.addImm x (fieldNN op))
  | 0x8 => decodeClass8 op
  | 0x9 => if fieldN op = 0 then .instr (.sneReg x y) else .illegal op
  | 0xA => .instr (.ldI (fieldNNN op))
  | 0xB => .instr (.jpV0 (fieldNNN op))
  | 0xC => .instr (.rnd x (fieldNN op))
  | 0xD => .instr (.drw x y (fieldN op).toNat)
  | 0xE => decodeClassE op
  | _ => decodeClassF op

/-- Big-endian: the byte at the lower address is the high byte (20_memory.md rule R62). -/
def wordOfBytes (hi lo : Byte) : Word := hi ++ lo

/-- The decoder on bytes in memory order: the first two are the instruction (30_encoding.md rule R90). -/
def decodeBytes : List Byte → Decoded
  | hi :: lo :: _ => decodeWord (wordOfBytes hi lo)
  | _ => .truncated

/-- The high byte of a word: the one stored at the lower address (20_memory.md rule R62). -/
def highByte (op : Word) : Byte := op.extractLsb' 8 8

/-- The low byte of a word (20_memory.md rule R62). -/
def lowByte (op : Word) : Byte := op.extractLsb' 0 8

/-- The word with table bits `w`, every bit above `nbits` 0 (spec/opcode_table.json gives every row 16 bits). -/
def tableWord (nbits w : Nat) : Word := BitVec.ofNat 16 (w % 2 ^ nbits)

/-- The instruction the decoder reads from the table's numbering of its bits, laid out as memory holds it. -/
def decodeTableWord (nbits w : Nat) : Option Instr :=
  match decodeBytes [highByte (tableWord nbits w), lowByte (tableWord nbits w)] with
  | .instr i => some i
  | .illegal _ => none
  | .truncated => none

/-! ### Encoding -/

/-- A register number as the nibble that names it (30_encoding.md rule R91). -/
def nibbleOf (r : Reg) : Nibble := BitVec.ofFin r

/-- Format A: class and NNN (30_encoding.md rule R91). -/
def formatA (c : Nibble) (nnn : Imm12) : Word := c ++ nnn

/-- Format XK: class, X and NN; format X is the same with a literal low byte (30_encoding.md rule R91). -/
def formatXK (c : Nibble) (x : Reg) (nn : Byte) : Word := (c ++ nibbleOf x) ++ nn

/-- Formats XY and XYN: class, X, Y and the low nibble (30_encoding.md rule R91). -/
def formatXYN (c : Nibble) (x y : Reg) (n : Nibble) : Word := (c ++ nibbleOf x) ++ (nibbleOf y ++ n)

/-- The word of an instruction: its row's literal digits with the fields filled in (30_encoding.md rules R96, R100). -/
def encode : Instr → Word
  | .cls => 0x00E0
  | .ret => 0x00EE
  | .nop => 0x0000
  | .jp nnn => formatA 0x1 nnn
  | .call nnn => formatA 0x2 nnn
  | .seImm x nn => formatXK 0x3 x nn
  | .sneImm x nn => formatXK 0x4 x nn
  | .seReg x y => formatXYN 0x5 x y 0x0
  | .sneReg x y => formatXYN 0x9 x y 0x0
  | .ldImm x nn => formatXK 0x6 x nn
  | .addImm x nn => formatXK 0x7 x nn
  | .ldReg x y => formatXYN 0x8 x y 0x0
  | .or x y => formatXYN 0x8 x y 0x1
  | .and x y => formatXYN 0x8 x y 0x2
  | .xor x y => formatXYN 0x8 x y 0x3
  | .addReg x y => formatXYN 0x8 x y 0x4
  | .sub x y => formatXYN 0x8 x y 0x5
  | .shr x y => formatXYN 0x8 x y 0x6
  | .subn x y => formatXYN 0x8 x y 0x7
  | .shl x y => formatXYN 0x8 x y 0xE
  | .ldI nnn => formatA 0xA nnn
  | .jpV0 nnn => formatA 0xB nnn
  | .rnd x nn => formatXK 0xC x nn
  | .drw x y n => formatXYN 0xD x y (BitVec.ofNat 4 n)
  | .skp x => formatXK 0xE x 0x9E
  | .sknp x => formatXK 0xE x 0xA1
  | .ldVxDt x => formatXK 0xF x 0x07
  | .ldDtVx x => formatXK 0xF x 0x15
  | .ldStVx x => formatXK 0xF x 0x18
  | .ldVxKey x => formatXK 0xF x 0x0A
  | .addI x => formatXK 0xF x 0x1E
  | .ldF x => formatXK 0xF x 0x29
  | .ldB x => formatXK 0xF x 0x33
  | .storeRegs x => formatXK 0xF x 0x55
  | .loadRegs x => formatXK 0xF x 0x65

/-! ### The opcode map -/

/-- The two numbers of a row of the opcode map: the row is selected when `op &&& mask = value` (30_encoding.md rule R96). -/
structure OpcodeRow where
  value : Word
  mask : Word
  deriving DecidableEq, Repr

/-- The word matches the row (30_encoding.md rule R96). -/
abbrev OpcodeRow.selects (r : OpcodeRow) (op : Word) : Prop := op &&& r.mask = r.value

/-- The row of the opcode map an instruction belongs to (30_encoding.md rule R96). -/
def Instr.row : Instr → OpcodeRow
  | .cls => ⟨0x00E0, 0xFFFF⟩
  | .ret => ⟨0x00EE, 0xFFFF⟩
  | .nop => ⟨0x0000, 0xFFFF⟩
  | .jp _ => ⟨0x1000, 0xF000⟩
  | .call _ => ⟨0x2000, 0xF000⟩
  | .seImm _ _ => ⟨0x3000, 0xF000⟩
  | .sneImm _ _ => ⟨0x4000, 0xF000⟩
  | .seReg _ _ => ⟨0x5000, 0xF00F⟩
  | .sneReg _ _ => ⟨0x9000, 0xF00F⟩
  | .ldImm _ _ => ⟨0x6000, 0xF000⟩
  | .addImm _ _ => ⟨0x7000, 0xF000⟩
  | .ldReg _ _ => ⟨0x8000, 0xF00F⟩
  | .or _ _ => ⟨0x8001, 0xF00F⟩
  | .and _ _ => ⟨0x8002, 0xF00F⟩
  | .xor _ _ => ⟨0x8003, 0xF00F⟩
  | .addReg _ _ => ⟨0x8004, 0xF00F⟩
  | .sub _ _ => ⟨0x8005, 0xF00F⟩
  | .shr _ _ => ⟨0x8006, 0xF00F⟩
  | .subn _ _ => ⟨0x8007, 0xF00F⟩
  | .shl _ _ => ⟨0x800E, 0xF00F⟩
  | .ldI _ => ⟨0xA000, 0xF000⟩
  | .jpV0 _ => ⟨0xB000, 0xF000⟩
  | .rnd _ _ => ⟨0xC000, 0xF000⟩
  | .drw _ _ _ => ⟨0xD000, 0xF000⟩
  | .skp _ => ⟨0xE09E, 0xF0FF⟩
  | .sknp _ => ⟨0xE0A1, 0xF0FF⟩
  | .ldVxDt _ => ⟨0xF007, 0xF0FF⟩
  | .ldDtVx _ => ⟨0xF015, 0xF0FF⟩
  | .ldStVx _ => ⟨0xF018, 0xF0FF⟩
  | .ldVxKey _ => ⟨0xF00A, 0xF0FF⟩
  | .addI _ => ⟨0xF01E, 0xF0FF⟩
  | .ldF _ => ⟨0xF029, 0xF0FF⟩
  | .ldB _ => ⟨0xF033, 0xF0FF⟩
  | .storeRegs _ => ⟨0xF055, 0xF0FF⟩
  | .loadRegs _ => ⟨0xF065, 0xF0FF⟩

/-- The 35 rows, in the order of the document's table (30_encoding.md rule R96). -/
def opcodeMap : List OpcodeRow :=
  [⟨0x00E0, 0xFFFF⟩, ⟨0x00EE, 0xFFFF⟩, ⟨0x0000, 0xFFFF⟩, ⟨0x1000, 0xF000⟩, ⟨0x2000, 0xF000⟩,
   ⟨0x3000, 0xF000⟩, ⟨0x4000, 0xF000⟩, ⟨0x5000, 0xF00F⟩, ⟨0x9000, 0xF00F⟩, ⟨0x6000, 0xF000⟩,
   ⟨0x7000, 0xF000⟩, ⟨0x8000, 0xF00F⟩, ⟨0x8001, 0xF00F⟩, ⟨0x8002, 0xF00F⟩, ⟨0x8003, 0xF00F⟩,
   ⟨0x8004, 0xF00F⟩, ⟨0x8005, 0xF00F⟩, ⟨0x8006, 0xF00F⟩, ⟨0x8007, 0xF00F⟩, ⟨0x800E, 0xF00F⟩] ++
  [⟨0xA000, 0xF000⟩, ⟨0xB000, 0xF000⟩, ⟨0xC000, 0xF000⟩, ⟨0xD000, 0xF000⟩, ⟨0xE09E, 0xF0FF⟩,
   ⟨0xE0A1, 0xF0FF⟩, ⟨0xF007, 0xF0FF⟩, ⟨0xF015, 0xF0FF⟩, ⟨0xF018, 0xF0FF⟩, ⟨0xF00A, 0xF0FF⟩,
   ⟨0xF01E, 0xF0FF⟩, ⟨0xF029, 0xF0FF⟩, ⟨0xF033, 0xF0FF⟩, ⟨0xF055, 0xF0FF⟩, ⟨0xF065, 0xF0FF⟩]

/-! ### The illegal words -/

/-- The illegal words, class by class, as the spec lists them (30_encoding.md rule R98). Statements use it; the decoder does not. -/
def isIllegalWord (op : Word) : Bool :=
  match (classOf op).toNat with
  | 0x0 => op ≠ 0x0000 && op ≠ 0x00E0 && op ≠ 0x00EE
  | 0x5 | 0x9 => fieldN op ≠ 0
  | 0x8 => [0x8, 0x9, 0xA, 0xB, 0xC, 0xD, 0xF].contains (fieldN op).toNat
  | 0xE => !([0x9E, 0xA1].contains (fieldNN op).toNat)
  | 0xF => !([0x07, 0x0A, 0x15, 0x18, 0x1E, 0x29, 0x33, 0x55, 0x65].contains (fieldNN op).toNat)
  | _ => false

end Sys2Proof
end

