-- ==== Sys2Proof/Machine/Flags.lean ====
section
/-! DEFINITION. The values written to VF as a flag (10_state.md rule R21). Comparisons are on the unbounded values
(41_alu.md rule R140). -/

namespace Sys2Proof.Machine

/-- 1 when the condition holds, else 0. -/
def flagByte (c : Bool) : Byte := if c then 1 else 0

/-- 8XY4: `V[Y] > 0xFF - V[X]`, both read after the addition; not a carry (41_alu.md rule R147). -/
def postAddFlag (vx vy : Byte) : Byte := flagByte (decide (vy.toNat > 0xFF - vx.toNat))

/-- 8XY5 and 8XY7: 0 when the subtrahend is the larger (borrow), else 1 (41_alu.md rules R148, R150). -/
def noBorrowFlag (minuend subtrahend : Byte) : Byte := if subtrahend.toNat > minuend.toNat then 0 else 1

/-- 8XY6: the bit shifted out on the right (41_alu.md rule R149). -/
def lowBitFlag (vx : Byte) : Byte := vx &&& 1

/-- 8XYE: the bit shifted out on the left (41_alu.md rule R151). -/
def highBitFlag (vx : Byte) : Byte := vx >>> 7

/-- FX1E: the sum on unbounded naturals leaves the 12-bit range (42_index_memory.md rule R171). -/
def indexFlag (i : Word) (vx : Byte) : Byte := flagByte (decide (i.toNat + vx.toNat > 0xFFF))

end Sys2Proof.Machine
end

