-- ==== Sys2Proof/Config.lean ====
section
/-! DEFINITION. What is fixed for the block (00_scope.md rule R4) and its two free values, the random byte
(41_alu.md rule R153) and the order of the agents' steps (60_exceptions.md rule R266). -/

namespace Sys2Proof

/-- The last byte address of the 4096-byte memory (00_scope.md rule R4, `MEM_SIZE`). -/
abbrev Config.memTop : Nat := 0xFFF

/-- Load address of a program and reset value of `pc` (00_scope.md rule R4, `PROG_BASE`). -/
abbrev Config.progBase : Nat := 0x200

/-- Longest program image copied (00_scope.md rule R4, `ROM_MAX`). -/
abbrev Config.romMax : Nat := 3584

/-- Shortest program image accepted (00_scope.md rule R4, `ROM_MIN`). -/
abbrev Config.romMin : Nat := 2

/-- Bytes per glyph of the font (00_scope.md rule R4, `FONT_STRIDE`). -/
abbrev Config.fontStride : Nat := 5

/-- Milliseconds from a press to its synthetic release (00_scope.md rule R4, `KEY_HOLD`). -/
abbrev Config.keyHold : Nat := 100

/-- The 16 glyphs of the default font, digit 0 first, top row first (10_state.md rule R33).
PRESUMED (the spec itself marks the bytes as general knowledge, decision D14); unsafe for a claim about a glyph's pixels: log 4. -/
def Config.glyphs : List (List Byte) :=
  [[0xF0, 0x90, 0x90, 0x90, 0xF0], [0x20, 0x60, 0x20, 0x20, 0x70], [0xF0, 0x10, 0xF0, 0x80, 0xF0],
   [0xF0, 0x10, 0xF0, 0x10, 0xF0], [0x90, 0x90, 0xF0, 0x10, 0x10], [0xF0, 0x80, 0xF0, 0x10, 0xF0],
   [0xF0, 0x80, 0xF0, 0x90, 0xF0], [0xF0, 0x10, 0x20, 0x40, 0x40]] ++
  [[0xF0, 0x90, 0xF0, 0x90, 0xF0], [0xF0, 0x90, 0xF0, 0x10, 0xF0], [0xF0, 0x90, 0xF0, 0x90, 0x90],
   [0xE0, 0x90, 0xE0, 0x90, 0xE0], [0xF0, 0x80, 0x80, 0x80, 0xF0], [0xE0, 0x90, 0x90, 0x90, 0xE0],
   [0xF0, 0x80, 0xF0, 0x80, 0xF0], [0xF0, 0x80, 0xF0, 0x80, 0x80]]

/-- The parameter FONT at its default: the 80 bytes at 0x000 (10_state.md rule R33). -/
def Config.font : List Byte := Config.glyphs.flatten

/-- The parameter RND: the byte that draw number `n` answers (41_alu.md rules R152, R153). A FREE VALUE: it has no body, so
nothing can be proved about it; log 2. -/
opaque Config.rnd : Nat → Byte

/-- One atomic step of an agent, as a schedule names it (00_scope.md rule R10, 60_exceptions.md rules R262 to R266; log 1). -/
inductive Event where
  /-- the scheduler's turn: as a rule one `cycle` (60_exceptions.md rule R259) -/
  | scheduler
  /-- the dirty handshake, where the schedule places it apart from the scheduler's next turn (60_exceptions.md rule R256) -/
  | handshake
  /-- the timer unit's next sub-step (60_exceptions.md rule R244) -/
  | timer
  /-- the keyboard unit's next step, `elapsed` milliseconds after its last one (60_exceptions.md rules R250 to R253) -/
  | keyboard (elapsed : Nat)
  /-- the input collaborator makes a key-down event available (60_exceptions.md rule R250) -/
  | keyDown (k : Key)
  /-- the rendering collaborator takes a status snapshot (60_exceptions.md rule R257) -/
  | snapshot
  /-- an outside exit request makes the scheduler clear `running` (60_exceptions.md rule R258) -/
  | exitRequest
  deriving DecidableEq, Repr, Inhabited

/-- The open schedule: step number `n` of the agents, with the inputs that come with it. A FREE VALUE: it has no body, so a
claim holds for every infinite interleaving of the agents' steps (60_exceptions.md rule R266; log 1). -/
opaque Config.arrival : Nat → Event

end Sys2Proof
end

