-- ==== Sys2Proof/Machine/State.lean ====
section
/-! DEFINITION. The state of the block as plain data: everything 10_state.md gives it, the phases and queues the timer and
keyboard units' rules imply, and four fields of the model's own (`draws`, `schedule`, `source`, `outputs`). Also the reasons a step
can stop, and the state after reset. -/

namespace Sys2Proof.Machine

/-- Main memory: the cells that differ from what an unlisted address reads as, addresses strictly rising
(10_state.md rule R33; log 5). -/
abbrev Memory := List Host.Cell

/-- The framebuffer: 32 rows of 64 one-bit cells; row y, column x is fb[y][x] (10_state.md rule R34, 43_display.md rule R190). -/
abbrev Framebuffer := Vector (Vector Bool 64) 32

/-- Why a step stops: the conditions for which the document defines no behaviour (60_exceptions.md rules R231 to R235). -/
inductive Fault where
  /-- Raised by CALL at sp = 15, with the address of the CALL (60_exceptions.md rule R231), and by CALL and RET in states with
  sp above 15, which no run reaches (log 9). Safe: the block may go on where the model stops. -/
  | stackOverflow (pc : Word)
  /-- Raised by RET at sp = 0, with the address of the RET (60_exceptions.md rule R232). Safe. -/
  | stackUnderflow (pc : Word)
  /-- Raised by the fetch, DRW, LD B, LD [I] and LD Vx, [I] when an address of the access is above 0xFFF, with the lowest such
  address (60_exceptions.md rule R233). Safe. -/
  | memoryOutOfRange (addr : Nat)
  /-- Raised by SKP and SKNP when V[X] is above 15, with V[X] (60_exceptions.md rule R234). Safe. -/
  | keyIndexOutOfRange (k : Byte)
  deriving DecidableEq, Repr

/-- Why a step has no meaning. -/
inductive Refusal where
  /-- Raised by an arm of exec whose instruction has no meaning yet; no arm is left in that state. Safe. -/
  | notModelled (mnemonic : String)
  deriving DecidableEq, Repr

/-- Where the timer unit stands inside a tick, which is two atomic sub-steps (60_exceptions.md rules R244, R263; log 17). -/
inductive TickPhase where
  /-- between ticks -/
  | idle
  /-- the delay sub-step is done and the sound sub-step is due -/
  | soundDue
  deriving DecidableEq, Repr

/-- Where the keyboard unit stands inside a poll iteration (60_exceptions.md rules R253, R264; log 16). -/
inductive KeyboardPhase where
  /-- between iterations -/
  | idle
  /-- these key-downs of the iteration are still to be taken, oldest first -/
  | draining (events : List Key)
  /-- the presses are done and key `k` is the next to be inspected -/
  | scanning (k : Key)
  deriving DecidableEq, Repr

/-- The status snapshot the rendering collaborator may read (60_exceptions.md rule R257). -/
structure Status where
  pc : Word
  i : Word
  opcode : Word
  v : Vector Byte 16
  stack : Vector Word 16
  dt : Byte
  st : Byte
  deriving DecidableEq, Repr

/-- What leaves the block (00_scope.md rule R11). -/
inductive Output where
  /-- the one-shot sound event (60_exceptions.md rule R247) -/
  | beep
  /-- the framebuffer handed to the rendering collaborator (60_exceptions.md rule R256) -/
  | frame (fb : Framebuffer)
  /-- a status snapshot handed to the rendering collaborator (60_exceptions.md rule R257) -/
  | status (snap : Status)
  deriving DecidableEq, Repr

/-- Where the agents' steps come from once `schedule` is empty (60_exceptions.md rule R266; log 1). -/
inductive Source where
  /-- the open schedule, from its step number `next` on: any infinite interleaving -/
  | free (next : Nat)
  /-- this list of steps over and over; the empty list is the scheduler's turn over and over -/
  | repeating (period : List Event)
  deriving DecidableEq, Repr

/-- The state of the block. -/
structure State where
  /-- V[0] to V[15] (10_state.md rules R20, R21) -/
  v : Vector Byte 16
  /-- I, the index register (10_state.md rule R23) -/
  i : Word
  /-- the program counter (10_state.md rule R22) -/
  pc : Word
  /-- the return-address stack (10_state.md rule R24) -/
  stack : Vector Word 16
  /-- the stack pointer: 8 bits, 0 to 15 used (10_state.md rule R25) -/
  sp : Byte
  /-- DT, the delay timer (10_state.md rule R26) -/
  dt : Byte
  /-- ST, the sound timer (10_state.md rule R27) -/
  st : Byte
  /-- main memory (10_state.md rule R33) -/
  mem : Memory
  /-- the framebuffer (10_state.md rule R34) -/
  fb : Framebuffer
  /-- the framebuffer's dirty flag (10_state.md rule R28) -/
  dirty : Bool
  /-- the word the current or most recent cycle fetched (10_state.md rule R29) -/
  opcode : Word
  /-- the pressed flags (10_state.md rule R36) -/
  key : Vector Bool 16
  /-- the expiry deadlines in milliseconds, 0 for none (10_state.md rule R37) -/
  expiry : Vector Nat 16
  /-- the cooperative shutdown flag (10_state.md rule R30) -/
  running : Bool
  /-- the last cycle answered `fail` (10_state.md rule R31) -/
  halted : Bool
  /-- the recorded fault, if any (10_state.md rule R31, 60_exceptions.md rule R235) -/
  fault : Option Fault
  /-- the timer unit's place inside a tick (60_exceptions.md rule R244) -/
  tickPhase : TickPhase
  /-- the keyboard unit's place inside a poll iteration (60_exceptions.md rule R253) -/
  keyboard : KeyboardPhase
  /-- key-downs available and not yet taken, oldest first (60_exceptions.md rule R253, 70_reset_and_hazards.md rule R291) -/
  keyQueue : List Key
  /-- the time the keyboard unit last saw, in milliseconds (60_exceptions.md rule R250; log 15) -/
  now : Nat
  /-- the model's own: how many random bytes have been drawn (log 2) -/
  draws : Nat
  /-- the model's own: the agents' steps to come first, oldest first (log 1) -/
  schedule : List Event
  /-- the model's own: where the steps after those come from (log 1) -/
  source : Source
  /-- the model's own: what has left the block, newest first (log 18) -/
  outputs : List Output
  deriving DecidableEq, Repr

/-- The state after reset with no program image: every field as 10_state.md rule R41 tabulates it
(70_reset_and_hazards.md rules R281 to R287); the model's own fields as log 1, 2, 15, 16 and 18 say. -/
def State.reset : State where
  v := Vector.replicate 16 0
  i := 0
  pc := 0x200
  stack := Vector.replicate 16 0
  sp := 0
  dt := 0
  st := 0
  mem := []
  fb := Vector.replicate 32 (Vector.replicate 64 false)
  dirty := false
  opcode := 0
  key := Vector.replicate 16 false
  expiry := Vector.replicate 16 0
  running := true
  halted := false
  fault := none
  tickPhase := .idle
  keyboard := .idle
  keyQueue := []
  now := 1
  draws := 0
  schedule := []
  source := .free 0
  outputs := []

end Sys2Proof.Machine
end

