-- ==== Sys2Proof/Machine/Ops.lean ====
section
/-! DEFINITION. The named operations over registers and memory, raising a fault, the decode failure (the one failure the
document defines), and the recording of a step's outcome. -/

namespace Sys2Proof.Machine

/-! ### Registers -/

/-- `V[r]` (00_scope.md rule R7, 10_state.md rule R20). -/
def State.getV (s : State) (r : Reg) : Byte := s.v[r]

/-- `V[r] <- b` (00_scope.md rule R7, 10_state.md rule R20). -/
def State.setV (s : State) (r : Reg) (b : Byte) : State := { s with v := s.v.set r b }

/-- `pc <- target` (00_scope.md rule R7). -/
def State.setPc (s : State) (target : Word) : State := { s with pc := target }

/-- `pc <- (pc + n) mod 65536`: fall-through for 2, skip for 4 (40_flow.md rule R120). -/
def State.advance (s : State) (n : Nat) : State := s.setPc (s.pc + BitVec.ofNat 16 n)

/-- The end of a conditional skip: 4 bytes when taken, else 2 (40_flow.md rule R120). -/
def State.skipIf (s : State) (taken : Bool) : State := s.advance (if taken then 4 else 2)

/-- `I <- w` (10_state.md rule R23). -/
def State.setI (s : State) (w : Word) : State := { s with i := w }

/-! ### Memory -/

/-- What an address with no cell listed reads as: the reset contents, FONT at 0x000 to 0x04F and 0 elsewhere
(10_state.md rules R33, R41; log 4, log 5). -/
def Memory.unlisted (a : Nat) : Byte := Config.font.getD a 0

/-- `MemRead(a, 1)` (00_scope.md rule R7, 20_memory.md rule R67). -/
def Memory.read : Memory → Nat → Byte
  | [], a => Memory.unlisted a
  | (b, v) :: rest, a => if a = b then v else Memory.read rest a

/-- Puts a cell in its place by address. -/
def Memory.insert (c : Host.Cell) : Memory → Memory
  | [] => [c]
  | d :: rest => if c.1 < d.1 then c :: d :: rest else d :: Memory.insert c rest

/-- The memory with no cell listed at `a`. -/
def Memory.erase (m : Memory) (a : Nat) : Memory := m.filter (fun c => c.1 ≠ a)

/-- `MemWrite(a, 1, v)` (00_scope.md rule R7). A cell equal to what an unlisted address reads as is not listed. There is no
address above 0xFFF: every rule checks its range first (20_memory.md rule R66), so nothing is written there. -/
def Memory.write (m : Memory) (a : Nat) (v : Byte) : Memory :=
  if a ≤ Config.memTop then
    if v = Memory.unlisted a then Memory.erase m a else Memory.insert (a, v) (Memory.erase m a)
  else m

/-- Byte writes at rising addresses (20_memory.md rule R63). -/
def Memory.writeBytes (m : Memory) (a : Nat) : List Byte → Memory
  | [] => m
  | b :: bs => Memory.writeBytes (Memory.write m a b) (a + 1) bs

/-- `n` byte reads at rising addresses (20_memory.md rule R63). -/
def Memory.readBytes (m : Memory) (a : Nat) : Nat → List Byte
  | 0 => []
  | n + 1 => Memory.read m a :: Memory.readBytes m (a + 1) n

/-- The canonical form: addresses strictly rising and at most 0xFFF, no cell equal to what an unlisted address reads as. -/
abbrev Memory.wf (m : Memory) : Prop :=
  m.Pairwise (fun c d => c.1 < d.1) ∧ ∀ c ∈ m, c.1 ≤ Config.memTop ∧ c.2 ≠ Memory.unlisted c.1

/-- The state with its memory replaced. -/
def State.setMem (s : State) (m : Memory) : State := { s with mem := m }

/-! ### Faults and the decode failure -/

/-- `raise <Name>(info)`: the step ends at once and changes nothing (00_scope.md rules R7, R9; 60_exceptions.md section 2). -/
def raise (r : Fault) : Host.Outcome State Fault Refusal := .fault r

/-- Goes on with `k` when the `len` bytes from `base` all lie at or below 0xFFF; else raises `MemoryOutOfRange` with the lowest
offending address, before any effect. The sum is on naturals; no bytes means no check (20_memory.md rule R66). -/
def checkRange (base len : Nat) (k : Host.Outcome State Fault Refusal) : Host.Outcome State Fault Refusal :=
  if len = 0 ∨ base + len ≤ Config.memTop + 1 then k else raise (.memoryOutOfRange (max base (Config.memTop + 1)))

/-- The fetch's latch: `opcode <- op` (30_encoding.md rule R90). -/
def State.latch (s : State) (op : Word) : State := { s with opcode := op }

/-- The decode failure: `opcode` holds the word, `halted <- 1`, nothing else changes (60_exceptions.md rules R230, R239).
There is no handler and no return (60_exceptions.md rules R239, R240). -/
def decodeFailure (op : Word) (s : State) : Host.Outcome State Fault Refusal := .next { s.latch op with halted := true }

/-- The recording of a fault: `fault` holds the reason, nothing else changes (60_exceptions.md section 2 and rule R235). -/
def State.recordFault (s : State) (r : Fault) : State := { s with fault := some r }

/-- The state a step with this outcome leaves the block in, the fault recorded where there is one (10_state.md rule R31,
60_exceptions.md rule R235; log 8). -/
def recordOutcome (s : State) : Host.Outcome State Fault Refusal → State
  | .next t => t
  | .fault r => s.recordFault r
  | .refused _ => s

/-- The scheduler's answer to a `cycle` request. -/
inductive Answer where
  | ok
  | fail
  deriving DecidableEq, Repr

/-- The answer of a cycle with this outcome: `fail` for the decode failure, `ok` for a completed instruction, none defined for
a fault (60_exceptions.md rule R235). -/
def answerOf : Host.Outcome State Fault Refusal → Option Answer
  | .next t => some (if t.halted then .fail else .ok)
  | .fault _ => none
  | .refused _ => none

/-- The number of a fault (60_exceptions.md rule R235). -/
def faultNumber : Fault → Nat
  | .stackOverflow _ => 2
  | .stackUnderflow _ => 3
  | .memoryOutOfRange _ => 4
  | .keyIndexOutOfRange _ => 5

/-- The info value of a fault (60_exceptions.md rules R231 to R235). -/
def faultInfo : Fault → Nat
  | .stackOverflow pc => pc.toNat
  | .stackUnderflow pc => pc.toNat
  | .memoryOutOfRange a => a
  | .keyIndexOutOfRange k => k.toNat

/-- The number of a cycle's outcome (60_exceptions.md rule R235); a refusal, which no cycle answers, has none. -/
def outcomeNumber : Host.Outcome State Fault Refusal → Option Nat
  | .next t => some (if t.halted then 1 else 0)
  | .fault r => some (faultNumber r)
  | .refused _ => none

/-- The event log of the block: something leaves it (log 18). -/
def State.emit (s : State) (o : Output) : State := { s with outputs := o :: s.outputs }

end Sys2Proof.Machine
end

