-- ==== Sys2Proof/Machine/Operands.lean ====
section
/-! DEFINITION. The operand forms: immediates widened, addresses from I, register blocks, decimal digits, key lookups
(30_encoding.md rule R92, 42_index_memory.md rule R176). -/

namespace Sys2Proof.Machine

/-- NNN zero-extended to 16 bits (30_encoding.md rule R92). -/
def immWord (nnn : Imm12) : Word := nnn.setWidth 16

/-- A V register's value zero-extended to 16 bits, as an addend of `pc` or `I` (00_scope.md rule R6). -/
def byteWord (b : Byte) : Word := b.setWidth 16

/-- The base of every data access: I as a natural number, not reduced (42_index_memory.md rule R176). -/
def State.base (s : State) : Nat := s.i.toNat

/-- V[0] to V[X], the bytes FX55 stores (42_index_memory.md rule R174). -/
def State.regBytes (s : State) (x : Reg) : List Byte := s.v.toList.take (x.val + 1)

/-- `V[k] <- MemRead(base + k, 1)` for the first `n` registers, rising (42_index_memory.md rule R175). -/
def loadBlock (m : Memory) (base : Nat) (v : Vector Byte 16) : Nat → Vector Byte 16
  | 0 => v
  | k + 1 => (loadBlock m base v k).setIfInBounds k (Memory.read m (base + k))

/-- The number of registers or bytes FX55 and FX65 move: X + 1 (42_index_memory.md rules R174, R175). -/
def blockLength (x : Reg) : Nat := x.val + 1

/-- Hundreds, tens and ones of a byte (42_index_memory.md rule R173). -/
def decimalDigits (b : Byte) : List Byte :=
  [BitVec.ofNat 8 (b.toNat / 100), BitVec.ofNat 8 (b.toNat / 10 % 10), BitVec.ofNat 8 (b.toNat % 10)]

/-- The address FX29 puts in I: the whole byte times the glyph stride (42_index_memory.md rule R172). -/
def glyphAddress (b : Byte) : Word := BitVec.ofNat 16 (b.toNat * Config.fontStride)

/-- The 16 keys in ascending order (44_timer_key_instr.md rule R215). -/
def allKeys : List Key := [0, 1, 2, 3, 4, 5, 6, 7, 8, 9, 10, 11, 12, 13, 14, 15]

/-- `key[k]` for a register's value; none when there is no such key (44_timer_key_instr.md rule R213). -/
def State.keyAt (s : State) (k : Byte) : Option Bool := s.key[k.toNat]?

/-- The least pressed key (44_timer_key_instr.md rule R215). -/
def State.firstKey (s : State) : Option Key := allKeys.find? (fun k => s.key[k])

/-- `draw8()`: the next byte of the free input RND (41_alu.md rule R153; log 2). -/
def State.drawnByte (s : State) : Byte := Config.rnd s.draws

/-- One draw is used up (41_alu.md rule R153; log 2). -/
def State.useDraw (s : State) : State := { s with draws := s.draws + 1 }

end Sys2Proof.Machine
end

