-- ==== Sys2Proof/Machine/Alu.lean ====
section
/-! DEFINITION. Register load, arithmetic, logic and shift instructions (41_alu.md). Writes take effect in the order of the
rule's statements on the live registers, which decides the forms with X or Y = 0xF (00_scope.md rule R8; log 10). -/

namespace Sys2Proof.Machine

/-- 6XNN LD Vx, nn (41_alu.md rule R141). -/
def execLdImm (x : Reg) (nn : Byte) (s : State) : Host.Outcome State Fault Refusal :=
  .next ((s.setV x nn).advance 2)

/-- 7XNN ADD Vx, nn: no flag (41_alu.md rule R142). -/
def execAddImm (x : Reg) (nn : Byte) (s : State) : Host.Outcome State Fault Refusal :=
  .next ((s.setV x (s.getV x + nn)).advance 2)

/-- 8XY0 LD Vx, Vy (41_alu.md rule R143). -/
def execLdReg (x y : Reg) (s : State) : Host.Outcome State Fault Refusal :=
  .next ((s.setV x (s.getV y)).advance 2)

/-- 8XY1 OR Vx, Vy: no flag (41_alu.md rule R144). -/
def execOr (x y : Reg) (s : State) : Host.Outcome State Fault Refusal :=
  .next ((s.setV x (s.getV x ||| s.getV y)).advance 2)

/-- 8XY2 AND Vx, Vy: no flag (41_alu.md rule R145). -/
def execAnd (x y : Reg) (s : State) : Host.Outcome State Fault Refusal :=
  .next ((s.setV x (s.getV x &&& s.getV y)).advance 2)

/-- 8XY3 XOR Vx, Vy: no flag (41_alu.md rule R146). -/
def execXor (x y : Reg) (s : State) : Host.Outcome State Fault Refusal :=
  .next ((s.setV x (s.getV x ^^^ s.getV y)).advance 2)

/-- 8XY4 ADD Vx, Vy: the flag test reads both registers after the sum is written (41_alu.md rule R147). -/
def execAddReg (x y : Reg) (s : State) : Host.Outcome State Fault Refusal :=
  let s1 := s.setV x (s.getV x + s.getV y)
  let s2 := s1.setV VF (postAddFlag (s1.getV x) (s1.getV y))
  .next (s2.advance 2)

/-- 8XY5 SUB Vx, Vy: the difference reads both registers after VF is written (41_alu.md rule R148). -/
def execSub (x y : Reg) (s : State) : Host.Outcome State Fault Refusal :=
  let s1 := s.setV VF (noBorrowFlag (s.getV x) (s.getV y))
  let s2 := s1.setV x (s1.getV x - s1.getV y)
  .next (s2.advance 2)

/-- 8XY6 SHR Vx: Y is ignored (41_alu.md rule R149, 30_encoding.md rule R99). -/
def execShr (x _y : Reg) (s : State) : Host.Outcome State Fault Refusal :=
  let s1 := s.setV VF (lowBitFlag (s.getV x))
  let s2 := s1.setV x (s1.getV x >>> 1)
  .next (s2.advance 2)

/-- 8XY7 SUBN Vx, Vy: the difference reads both registers after VF is written (41_alu.md rule R150). -/
def execSubn (x y : Reg) (s : State) : Host.Outcome State Fault Refusal :=
  let s1 := s.setV VF (noBorrowFlag (s.getV y) (s.getV x))
  let s2 := s1.setV x (s1.getV y - s1.getV x)
  .next (s2.advance 2)

/-- 8XYE SHL Vx: Y is ignored (41_alu.md rule R151, 30_encoding.md rule R99). -/
def execShl (x _y : Reg) (s : State) : Host.Outcome State Fault Refusal :=
  let s1 := s.setV VF (highBitFlag (s.getV x))
  let s2 := s1.setV x (s1.getV x <<< 1)
  .next (s2.advance 2)

/-- CXNN RND Vx, nn: a fresh free byte masked by NN (41_alu.md rules R152, R153; log 2). -/
def execRnd (x : Reg) (nn : Byte) (s : State) : Host.Outcome State Fault Refusal :=
  let r := s.drawnByte
  .next ((s.useDraw.setV x (r &&& nn)).advance 2)

end Sys2Proof.Machine
end

