-- ==== Sys2Proof/Machine/Control.lean ====
section
/-! DEFINITION. The control flow instructions (40_flow.md). -/

namespace Sys2Proof.Machine

/-- 0000 NOP (40_flow.md rule R121). -/
def execNop (s : State) : Host.Outcome State Fault Refusal := .next (s.advance 2)

/-- 00EE RET: the popped entry is the address of the CALL and stays in the stack (40_flow.md rule R122). A stack pointer above 15
is outside its legal range and in no reachable state (10_state.md rule R25; log 9). -/
def execRet (s : State) : Host.Outcome State Fault Refusal :=
  if s.sp = 0 then raise (.stackUnderflow s.pc)
  else if h : s.sp.toNat ≤ 15 then
    let s1 := { s with sp := s.sp - 1 }
    .next (s1.setPc (s.stack[s.sp.toNat - 1] + 2))
  else raise (.stackOverflow s.pc)

/-- 1NNN JP nnn (40_flow.md rule R123). -/
def execJp (nnn : Imm12) (s : State) : Host.Outcome State Fault Refusal := .next (s.setPc (immWord nnn))

/-- 2NNN CALL nnn: pushes the address of the CALL itself (40_flow.md rule R124; log 9, log 13). -/
def execCall (nnn : Imm12) (s : State) : Host.Outcome State Fault Refusal :=
  if h : s.sp.toNat < 15 then
    let s1 := { s with stack := s.stack.set s.sp.toNat s.pc }
    let s2 := { s1 with sp := s1.sp + 1 }
    .next (s2.setPc (immWord nnn))
  else raise (.stackOverflow s.pc)

/-- 3XNN SE Vx, nn (40_flow.md rule R125). -/
def execSeImm (x : Reg) (nn : Byte) (s : State) : Host.Outcome State Fault Refusal :=
  .next (s.skipIf (s.getV x == nn))

/-- 4XNN SNE Vx, nn (40_flow.md rule R126). -/
def execSneImm (x : Reg) (nn : Byte) (s : State) : Host.Outcome State Fault Refusal :=
  .next (s.skipIf (s.getV x != nn))

/-- 5XY0 SE Vx, Vy (40_flow.md rule R127). -/
def execSeReg (x y : Reg) (s : State) : Host.Outcome State Fault Refusal :=
  .next (s.skipIf (s.getV x == s.getV y))

/-- 9XY0 SNE Vx, Vy (40_flow.md rule R128). -/
def execSneReg (x y : Reg) (s : State) : Host.Outcome State Fault Refusal :=
  .next (s.skipIf (s.getV x != s.getV y))

/-- BNNN JP V0, nnn (40_flow.md rule R129). -/
def execJpV0 (nnn : Imm12) (s : State) : Host.Outcome State Fault Refusal :=
  .next (s.setPc (immWord nnn + byteWord (s.getV V0)))

end Sys2Proof.Machine
end

