-- ==== Sys2Proof/Machine/Display.lean ====
section
/-! DEFINITION. The framebuffer engine and its two instructions (43_display.md). -/

namespace Sys2Proof.Machine

/-- The cleared framebuffer (43_display.md rule R191). -/
def blankFramebuffer : Framebuffer := Vector.replicate 32 (Vector.replicate 64 false)

/-- `fb[y][x]` (00_scope.md rule R7). -/
def cellAt (fb : Framebuffer) (x : Fin 64) (y : Fin 32) : Bool := fb[y][x]

/-- `fb[y][x] <- fb[y][x] ^ 1` (43_display.md rule R192). -/
def toggleCell (fb : Framebuffer) (x : Fin 64) (y : Fin 32) : Framebuffer :=
  fb.set y (fb[y].set x (!cellAt fb x y))

/-- One pixel of a sprite: a set bit inside the grid toggles its cell and reports a lit cell it erases; any other leaves all
alone (43_display.md rules R192, R194). The Bool is the collision so far. -/
def drawPixel (x y : Nat) (bit : Bool) (p : Framebuffer × Bool) : Framebuffer × Bool :=
  if h : bit = true ∧ x < 64 ∧ y < 32 then
    (toggleCell p.1 ⟨x, h.2.1⟩ ⟨y, h.2.2⟩, p.2 || cellAt p.1 ⟨x, h.2.1⟩ ⟨y, h.2.2⟩)
  else p

/-- Pixel `c` of a row byte: bit 7 is the leftmost (43_display.md rule R193). -/
def rowBit (row : Byte) (c : Nat) : Bool := row.getLsbD (7 - c)

/-- One sprite row, its 8 pixels from the left (43_display.md rule R192). -/
def drawRow (row : Byte) (x0 y : Nat) (p : Framebuffer × Bool) : Framebuffer × Bool :=
  [0, 1, 2, 3, 4, 5, 6, 7].foldl (fun q c => drawPixel (x0 + c) y (rowBit row c) q) p

/-- The rows of a sprite from the top; rows below the bottom edge are not drawn (43_display.md rules R192, R194). -/
def drawSprite (x0 : Nat) : Nat → List Byte → Framebuffer × Bool → Framebuffer × Bool
  | _, [], p => p
  | y, row :: rows, p => drawSprite x0 (y + 1) rows (drawRow row x0 y p)

/-- The column of a sprite's origin: `V[X] mod 64` (43_display.md rule R194). -/
def originX (b : Byte) : Nat := b.toNat % 64

/-- The row of a sprite's origin: `V[Y] mod 32` (43_display.md rule R194). -/
def originY (b : Byte) : Nat := b.toNat % 32

/-- 00E0 CLS (43_display.md rules R191, R196). -/
def execCls (s : State) : Host.Outcome State Fault Refusal :=
  .next ({ s with fb := blankFramebuffer, dirty := true }.advance 2)

/-- DXYN DRW Vx, Vy, n: the range check, the coordinates before VF is cleared, the sprite, dirty
(43_display.md rules R192 to R196). -/
def execDrw (x y : Reg) (n : Nat) (s : State) : Host.Outcome State Fault Refusal :=
  checkRange s.base n
    (let x0 := originX (s.getV x)
     let y0 := originY (s.getV y)
     let s1 := s.setV VF 0
     let drawn := drawSprite x0 y0 (Memory.readBytes s1.mem s1.base n) (s1.fb, false)
     let s2 := { s1.setV VF (flagByte drawn.2) with fb := drawn.1, dirty := true }
     .next (s2.advance 2))

end Sys2Proof.Machine
end

