-- ==== Sys2Proof/Machine/Index.lean ====
section
/-! DEFINITION. Index register and memory transfer instructions (42_index_memory.md). -/

namespace Sys2Proof.Machine

/-- ANNN LD I, nnn (42_index_memory.md rule R170). -/
def execLdI (nnn : Imm12) (s : State) : Host.Outcome State Fault Refusal :=
  .next ((s.setI (immWord nnn)).advance 2)

/-- FX1E ADD I, Vx: the flag first, then the sum with V[X] read after it (42_index_memory.md rule R171). -/
def execAddI (x : Reg) (s : State) : Host.Outcome State Fault Refusal :=
  let s1 := s.setV VF (indexFlag s.i (s.getV x))
  let s2 := s1.setI (s1.i + byteWord (s1.getV x))
  .next (s2.advance 2)

/-- FX29 LD F, Vx (42_index_memory.md rule R172). -/
def execLdF (x : Reg) (s : State) : Host.Outcome State Fault Refusal :=
  .next ((s.setI (glyphAddress (s.getV x))).advance 2)

/-- FX33 LD B, Vx (42_index_memory.md rule R173). -/
def execLdB (x : Reg) (s : State) : Host.Outcome State Fault Refusal :=
  checkRange s.base 3
    (.next ((s.setMem (Memory.writeBytes s.mem s.base (decimalDigits (s.getV x)))).advance 2))

/-- FX55 LD [I], Vx (42_index_memory.md rule R174). -/
def execStoreRegs (x : Reg) (s : State) : Host.Outcome State Fault Refusal :=
  checkRange s.base (blockLength x)
    (let s1 := s.setMem (Memory.writeBytes s.mem s.base (s.regBytes x))
     let s2 := s1.setI (s1.i + BitVec.ofNat 16 (blockLength x))
     .next (s2.advance 2))

/-- FX65 LD Vx, [I] (42_index_memory.md rule R175). -/
def execLoadRegs (x : Reg) (s : State) : Host.Outcome State Fault Refusal :=
  checkRange s.base (blockLength x)
    (let s1 := { s with v := loadBlock s.mem s.base s.v (blockLength x) }
     let s2 := s1.setI (s1.i + BitVec.ofNat 16 (blockLength x))
     .next (s2.advance 2))

end Sys2Proof.Machine
end

