-- ==== Sys2Proof/Machine/TimerKey.lean ====
section
/-! DEFINITION. Timer access and keyboard instructions (44_timer_key_instr.md). -/

namespace Sys2Proof.Machine

/-- FX07 LD Vx, DT (44_timer_key_instr.md rule R210). -/
def execLdVxDt (x : Reg) (s : State) : Host.Outcome State Fault Refusal :=
  .next ((s.setV x s.dt).advance 2)

/-- FX15 LD DT, Vx (44_timer_key_instr.md rule R211). -/
def execLdDtVx (x : Reg) (s : State) : Host.Outcome State Fault Refusal :=
  .next ({ s with dt := s.getV x }.advance 2)

/-- FX18 LD ST, Vx: emits no beep (44_timer_key_instr.md rule R212). -/
def execLdStVx (x : Reg) (s : State) : Host.Outcome State Fault Refusal :=
  .next ({ s with st := s.getV x }.advance 2)

/-- EX9E SKP Vx (44_timer_key_instr.md rule R213). -/
def execSkp (x : Reg) (s : State) : Host.Outcome State Fault Refusal :=
  match s.keyAt (s.getV x) with
  | some pressed => .next (s.skipIf pressed)
  | none => raise (.keyIndexOutOfRange (s.getV x))

/-- EXA1 SKNP Vx (44_timer_key_instr.md rule R214). -/
def execSknp (x : Reg) (s : State) : Host.Outcome State Fault Refusal :=
  match s.keyAt (s.getV x) with
  | some pressed => .next (s.skipIf (!pressed))
  | none => raise (.keyIndexOutOfRange (s.getV x))

/-- FX0A LD Vx, K: waits by leaving `pc` alone (44_timer_key_instr.md rule R215). -/
def execLdVxKey (x : Reg) (s : State) : Host.Outcome State Fault Refusal :=
  match s.firstKey with
  | some k => .next ((s.setV x (BitVec.ofNat 8 k.val)).advance 2)
  | none => .next s

end Sys2Proof.Machine
end

