-- ==== Sys2Proof/Machine/Keyboard.lean ====
section
/-! DEFINITION. The keyboard unit (60_exceptions.md rules R250 to R255). -/

namespace Sys2Proof.Machine

/-- `press(k, now)`: the flag and its deadline in one step (60_exceptions.md rule R251). -/
def press (k : Key) (now : Nat) (s : State) : State :=
  { s with key := s.key.set k true, expiry := s.expiry.set k (now + Config.keyHold) }

/-- `expire(k, now)` is enabled: there is a deadline and it has elapsed (60_exceptions.md rule R252). -/
def expireEnabled (k : Key) (now : Nat) (s : State) : Bool :=
  decide (s.expiry[k] ≠ 0) && decide (s.expiry[k] ≤ now)

/-- `expire(k, now)`: the synthetic release (60_exceptions.md rule R252). -/
def expire (k : Key) (s : State) : State :=
  { s with key := s.key.set k false, expiry := s.expiry.set k 0 }

/-- The inspection of one key in a poll iteration (60_exceptions.md rule R253). -/
def inspectKey (k : Key) (now : Nat) (s : State) : State :=
  if expireEnabled k now s then expire k s else s

/-- The phase after key `k` has been inspected: the next key, or the end of the iteration (60_exceptions.md rule R253). -/
def phaseAfterKey (k : Key) : KeyboardPhase :=
  if h : k.val + 1 < 16 then .scanning ⟨k.val + 1, h⟩ else .idle

/-- The keyboard unit's next atomic step at time `now`. An iteration starts only while `running`, with the key-downs available
at that moment; it takes them in arrival order, then inspects the keys in rising order; a started one completes
(60_exceptions.md rules R250 to R253, R258, R264; log 16). -/
def keyboardStep (now : Nat) (s0 : State) : State :=
  let s := { s0 with now := now }
  match s.keyboard with
  | .idle => if s.running then { s with keyboard := .draining s.keyQueue, keyQueue := [] } else s
  | .draining (k :: ks) => { press k now s with keyboard := .draining ks }
  | .draining [] => { inspectKey 0 now s with keyboard := phaseAfterKey 0 }
  | .scanning k => { inspectKey k now s with keyboard := phaseAfterKey k }

/-- One poll iteration with nothing between its steps and one time for all of them: the presses, then the inspections
(60_exceptions.md rule R253). -/
def poll (now : Nat) (s : State) : State :=
  let drained := s.keyQueue.foldl (fun t k => press k now t) { s with now := now, keyQueue := [] }
  allKeys.foldl (fun t k => inspectKey k now t) drained

/-- The input collaborator makes a key-down available (60_exceptions.md rule R250, 70_reset_and_hazards.md rule R291). -/
def queueKeyDown (k : Key) (s : State) : State := { s with keyQueue := s.keyQueue ++ [k] }

end Sys2Proof.Machine
end

