-- ==== Sys2Proof/Machine/Timer.lean ====
section
/-! DEFINITION. The timer unit (60_exceptions.md rules R243 to R249). -/

namespace Sys2Proof.Machine

/-- The delay sub-step: a counter above 0 loses 1; at 0 it stays (60_exceptions.md rule R245). -/
def delaySubStep (s : State) : State := if s.dt = 0 then s else { s with dt := s.dt - 1 }

/-- The sound sub-step: a counter above 0 loses 1, and the step from 1 to 0 emits one beep
(60_exceptions.md rules R246, R247). -/
def soundSubStep (s : State) : State :=
  if s.st = 0 then s
  else
    let s1 := { s with st := s.st - 1 }
    if s1.st = 0 then s1.emit .beep else s1

/-- The timer unit's next atomic step: a new tick starts only while `running`, a started one completes
(60_exceptions.md rules R244, R258, R263; log 17). -/
def timerStep (s : State) : State :=
  match s.tickPhase with
  | .idle => if s.running then { delaySubStep s with tickPhase := .soundDue } else s
  | .soundDue => { soundSubStep s with tickPhase := .idle }

/-- One tick with nothing between its two sub-steps (60_exceptions.md rule R244). -/
def tick (s : State) : State := soundSubStep (delaySubStep s)

end Sys2Proof.Machine
end

