-- ==== Sys2Proof/Machine/Scheduler.lean ====
section
/-! DEFINITION. The `cycle` step (30_encoding.md rule R90), the host's steps (60_exceptions.md rules R256 to R259), and the one
atomic step each event of the schedule stands for. -/

namespace Sys2Proof.Machine

/-- `MemRead(pc, 2)`, big-endian (20_memory.md rule R62). -/
def State.fetchWord (s : State) : Word :=
  wordOfBytes (Memory.read s.mem s.pc.toNat) (Memory.read s.mem (s.pc.toNat + 1))

/-- One `cycle`: the fetch range check, the fetch, the decode, the instruction's own rule
(30_encoding.md rule R90, 60_exceptions.md rules R230, R238, R262). -/
def cycle (s : State) : Host.Outcome State Fault Refusal :=
  checkRange s.pc.toNat 2
    (match decodeWord s.fetchWord with
     | .instr i => exec i (s.latch s.fetchWord)
     | .illegal op => decodeFailure op s
     | .truncated => decodeFailure s.fetchWord s)

/-- The dirty handshake, taken after a successful cycle: a dirty framebuffer is handed over and the flag cleared; after a failed
cycle it is not run (60_exceptions.md rule R256). -/
def handshake (s : State) : State :=
  if s.dirty && !s.halted then { s.emit (.frame s.fb) with dirty := false } else s

/-- The status snapshot (60_exceptions.md rule R257). -/
def State.status (s : State) : Status :=
  { pc := s.pc, i := s.i, opcode := s.opcode, v := s.v, stack := s.stack, dt := s.dt, st := s.st }

/-- The scheduler clears `running` (60_exceptions.md rule R258). -/
def State.stopRunning (s : State) : State := { s with running := false }

/-- What is still done after `running` fell: the last handshake, then the tick and the poll iteration already started; after
that nothing moves (60_exceptions.md rule R258; log 19). -/
def windDown (s : State) : State :=
  if s.dirty && !s.halted then handshake s
  else if s.tickPhase ≠ .idle then timerStep s
  else if s.keyboard ≠ .idle then keyboardStep s.now s
  else s

/-- The scheduler's turn: after a fault no further cycle; after a `fail` answer it clears `running`; once `running` is 0 it waits
for the units; else the handshake still owed to the last cycle and the next cycle
(60_exceptions.md section 2 and rules R256, R258, R259; log 14). -/
def schedulerTurn (s : State) : Host.Outcome State Fault Refusal :=
  match s.fault with
  | some r => raise r
  | none =>
    if s.running then
      if s.halted then .next s.stopRunning else cycle (handshake s)
    else .next (windDown s)

/-- The atomic step an event of the schedule stands for (60_exceptions.md rules R262 to R265; log 1). -/
def takeEvent (e : Event) (s : State) : Host.Outcome State Fault Refusal :=
  match e with
  | .scheduler => schedulerTurn s
  | .handshake => .next (handshake s)
  | .timer => .next (timerStep s)
  | .keyboard elapsed => .next (keyboardStep (s.now + elapsed) s)
  | .keyDown k => .next (queueKeyDown k s)
  | .snapshot => .next (s.emit (.status s.status))
  | .exitRequest => .next s.stopRunning

/-- The step that comes next: the head of `schedule`, or of the source once that is empty (60_exceptions.md rule R266; log 1). -/
def State.nextEvent (s : State) : Event :=
  match s.schedule with
  | e :: _ => e
  | [] =>
    match s.source with
    | .free n => Config.arrival n
    | .repeating (e :: _) => e
    | .repeating [] => .scheduler

/-- The source after one step was taken from it (log 1). -/
def advanceSource : Source → Source
  | .free n => .free (n + 1)
  | .repeating (e :: rest) => .repeating (rest ++ [e])
  | .repeating [] => .repeating []

/-- The state with the step that comes next taken off the order to come (log 1). -/
def State.dropNext (s : State) : State :=
  match s.schedule with
  | _ :: rest => { s with schedule := rest }
  | [] => { s with source := advanceSource s.source }

/-- The state with a word stored where the next cycle fetches (log 21). -/
def State.placeWord (s : State) (op : Word) : State :=
  s.setMem (Memory.writeBytes s.mem s.pc.toNat [highByte op, lowByte op])

end Sys2Proof.Machine
end

