-- ==== Sys2Proof/Machine/Step.lean ====
section
/-! DEFINITION. The step function: the agents' step that comes next (log 1); and the state whose next
step runs a given instruction (log 21). -/

namespace Sys2Proof.Machine

/-- One atomic step of one agent (00_scope.md rule R10, 60_exceptions.md rule R266). -/
def step (s : State) : Host.Outcome State Fault Refusal :=
  takeEvent s.nextEvent s.dropNext

/-- The state whose very next step fetches and runs the instruction with table bits `w`: its word stored at `pc`, and the
scheduler's turn next, free to request that cycle. -/
def State.withFetchWord (s : State) (nbits w : Nat) : State :=
  { s.placeWord (tableWord nbits w) with running := true, halted := false, fault := none, schedule := [.scheduler] }

end Sys2Proof.Machine
end

