-- ==== Sys2Proof/Machine/Boot.lean ====
section
/-! DEFINITION. The boot step, the block's only reset (70_reset_and_hazards.md rules R280 to R287). -/

namespace Sys2Proof.Machine

/-- Memory after `boot` with the font `font` and the program image `rom`: the font at 0x000, at most 3584 bytes of the image at
0x200, 0 elsewhere (70_reset_and_hazards.md rules R281, R286). -/
def bootMemory (font rom : List Byte) : Memory :=
  Memory.writeBytes (Memory.writeBytes [] 0 (font.take 80)) Config.progBase (rom.take Config.romMax)

/-- `boot(rom)` with the parameter FONT given; no state comes of an image of fewer than 2 bytes
(70_reset_and_hazards.md rules R280 to R287). -/
def State.bootWith (font rom : List Byte) : Option State :=
  if rom.length < Config.romMin then none else some { State.reset with mem := bootMemory font rom }

/-- `boot(rom)` with FONT at its default (70_reset_and_hazards.md rules R280 to R287; log 4). -/
def State.boot (rom : List Byte) : Option State := State.bootWith Config.font rom

end Sys2Proof.Machine
end

