-- ==== Sys2Proof/Safety.lean ====
section
/-! DEFINITION. The terms claims use: the invariant of every state the model keeps, when the next step is a cycle, the order of
the steps to come, when a step is safe, and which instructions write VF, memory or the framebuffer. -/

namespace Sys2Proof.Machine

/-- What every step keeps (Safety): the memory's canonical form; `sp` in its legal range (10_state.md rule R25); a key counts as
pressed exactly when it has a deadline (10_state.md rule R37); time is positive (60_exceptions.md rule R250) and no deadline is
more than the hold time ahead (60_exceptions.md rule R251); a failed cycle leaves nothing to hand over
(60_exceptions.md rule R256). -/
structure State.Inv (s : State) : Prop where
  mem_wf : Memory.wf s.mem
  sp_legal : s.sp.toNat ≤ 15
  key_iff_deadline : ∀ k : Key, s.key[k] = true ↔ s.expiry[k] ≠ 0
  now_pos : 0 < s.now
  deadline_near : ∀ k : Key, s.expiry[k] ≤ s.now + Config.keyHold
  halted_clean : s.halted = true → s.dirty = false

/-- The next step is a cycle: it is the scheduler's turn, the block runs, no cycle has failed or faulted
(60_exceptions.md rules R258, R259). -/
structure State.CycleDue (s : State) : Prop where
  turn : s.nextEvent = .scheduler
  running : s.running = true
  not_halted : s.halted = false
  no_fault : s.fault = none

/-- The infinite order of the agents' steps to come: `schedule`, and then the source for ever
(60_exceptions.md rule R266; log 1). -/
def State.upcoming (s : State) (n : Nat) : Event :=
  if h : n < s.schedule.length then s.schedule[n]
  else
    match s.source with
    | .free k => Config.arrival (k + (n - s.schedule.length))
    | .repeating p => p.getD ((n - s.schedule.length) % p.length) .scheduler

/-- Weak fairness, the one assumption about the order that a claim may make: cycles, ticks and polls keep happening and time
grows without bound (60_exceptions.md rule R266). -/
structure WeaklyFair (order : Nat → Event) : Prop where
  cycles : ∀ n, ∃ m, n ≤ m ∧ order m = .scheduler
  ticks : ∀ n, ∃ m, n ≤ m ∧ order m = .timer
  polls : ∀ n, ∃ m elapsed, n ≤ m ∧ 0 < elapsed ∧ order m = .keyboard elapsed

/-- The step is safe: it answers a next state, so it stays inside what the document defines (60_exceptions.md section 2). -/
def State.StepSafe (s : State) : Prop := ∃ t, step s = .next t

/-- The instructions that write VF as a flag, as the table of 10_state.md rule R21 lists them. -/
def writesFlag : Instr → Bool
  | .addReg _ _ | .sub _ _ | .shr _ _ | .subn _ _ | .shl _ _ | .drw _ _ _ | .addI _ => true
  | .cls | .ret | .nop | .jp _ | .call _ | .seImm _ _ | .sneImm _ _ | .seReg _ _ | .sneReg _ _ | .ldImm _ _
  | .addImm _ _ | .ldReg _ _ | .or _ _ | .and _ _ | .xor _ _ | .ldI _ | .jpV0 _ | .rnd _ _ | .skp _ | .sknp _
  | .ldVxDt _ | .ldDtVx _ | .ldStVx _ | .ldVxKey _ | .ldF _ | .ldB _ | .storeRegs _ | .loadRegs _ => false

/-- The register is one of the instruction's own destinations, apart from VF written as a flag (10_state.md rule R21). -/
def isDestination (r : Reg) : Instr → Bool
  | .ldImm x _ | .addImm x _ | .rnd x _ => r == x
  | .ldReg x _ | .or x _ | .and x _ | .xor x _ | .addReg x _ | .sub x _ | .shr x _ | .subn x _ | .shl x _ => r == x
  | .ldVxDt x | .ldVxKey x => r == x
  | .loadRegs x => decide (r ≤ x)
  | .cls | .ret | .nop | .jp _ | .call _ | .seImm _ _ | .sneImm _ _ | .seReg _ _ | .sneReg _ _ | .ldI _ | .jpV0 _
  | .drw _ _ _ | .skp _ | .sknp _ | .ldDtVx _ | .ldStVx _ | .addI _ | .ldF _ | .ldB _ | .storeRegs _ => false

/-- How many bytes from I on the instruction stores; 0 for every instruction but FX33 and FX55 (20_memory.md rule R65). -/
def storedBytes : Instr → Nat
  | .ldB _ => 3
  | .storeRegs x => blockLength x
  | .cls | .ret | .nop | .jp _ | .call _ | .seImm _ _ | .sneImm _ _ | .seReg _ _ | .sneReg _ _ | .ldImm _ _
  | .addImm _ _ | .ldReg _ _ | .or _ _ | .and _ _ | .xor _ _ | .addReg _ _ | .sub _ _ | .shr _ _ | .subn _ _
  | .shl _ _ | .ldI _ | .jpV0 _ | .rnd _ _ | .drw _ _ _ | .skp _ | .sknp _ | .ldVxDt _ | .ldDtVx _ | .ldStVx _
  | .ldVxKey _ | .addI _ | .ldF _ | .loadRegs _ => 0

/-- The instruction is one of the framebuffer engine's two operations (43_display.md rule R190). -/
def writesFramebuffer : Instr → Bool
  | .cls | .drw _ _ _ => true
  | .ret | .nop | .jp _ | .call _ | .seImm _ _ | .sneImm _ _ | .seReg _ _ | .sneReg _ _ | .ldImm _ _ | .addImm _ _
  | .ldReg _ _ | .or _ _ | .and _ _ | .xor _ _ | .addReg _ _ | .sub _ _ | .shr _ _ | .subn _ _ | .shl _ _ | .ldI _
  | .jpV0 _ | .rnd _ _ | .skp _ | .sknp _ | .ldVxDt _ | .ldDtVx _ | .ldStVx _ | .ldVxKey _ | .addI _ | .ldF _
  | .ldB _ | .storeRegs _ | .loadRegs _ => false

/-- The instruction sets `pc` itself: jumps, call and return (40_flow.md rule R120). -/
def setsPc : Instr → Bool
  | .ret | .jp _ | .call _ | .jpV0 _ => true
  | .cls | .nop | .seImm _ _ | .sneImm _ _ | .seReg _ _ | .sneReg _ _ | .ldImm _ _ | .addImm _ _ | .ldReg _ _
  | .or _ _ | .and _ _ | .xor _ _ | .addReg _ _ | .sub _ _ | .shr _ _ | .subn _ _ | .shl _ _ | .ldI _ | .rnd _ _
  | .drw _ _ _ | .skp _ | .sknp _ | .ldVxDt _ | .ldDtVx _ | .ldStVx _ | .ldVxKey _ | .addI _ | .ldF _ | .ldB _
  | .storeRegs _ | .loadRegs _ => false

/-- The instruction is a conditional skip (40_flow.md rule R120, 44_timer_key_instr.md rules R213, R214). -/
def isSkip : Instr → Bool
  | .seImm _ _ | .sneImm _ _ | .seReg _ _ | .sneReg _ _ | .skp _ | .sknp _ => true
  | .cls | .ret | .nop | .jp _ | .call _ | .ldImm _ _ | .addImm _ _ | .ldReg _ _ | .or _ _ | .and _ _ | .xor _ _
  | .addReg _ _ | .sub _ _ | .shr _ _ | .subn _ _ | .shl _ _ | .ldI _ | .jpV0 _ | .rnd _ _ | .drw _ _ _
  | .ldVxDt _ | .ldDtVx _ | .ldStVx _ | .ldVxKey _ | .addI _ | .ldF _ | .ldB _ | .storeRegs _ | .loadRegs _ => false

/-- The state lies inside the domain in which the document gives the instruction a meaning: the stack within its limits, every
memory address at most 0xFFF, the key index at most 15 (60_exceptions.md rules R231 to R234, 90_conflicts.md C6). -/
def inDomain (s : State) : Instr → Prop
  | .call _ => s.sp.toNat < 15
  | .ret => 0 < s.sp.toNat
  | .drw _ _ n => n = 0 ∨ s.i.toNat + (n - 1) ≤ 0xFFF
  | .ldB _ => s.i.toNat + 2 ≤ 0xFFF
  | .storeRegs x | .loadRegs x => s.i.toNat + x.val ≤ 0xFFF
  | .skp x | .sknp x => (s.getV x).toNat ≤ 15
  | .cls | .nop | .jp _ | .seImm _ _ | .sneImm _ _ | .seReg _ _ | .sneReg _ _ | .ldImm _ _ | .addImm _ _
  | .ldReg _ _ | .or _ _ | .and _ _ | .xor _ _ | .addReg _ _ | .sub _ _ | .shr _ _ | .subn _ _ | .shl _ _ | .ldI _
  | .jpV0 _ | .rnd _ _ | .ldVxDt _ | .ldDtVx _ | .ldStVx _ | .ldVxKey _ | .addI _ | .ldF _ => True

/-- The sprite's bit over a cell: the cell lies in the sprite's 8 by `n` box and the row byte has its bit set
(43_display.md rules R192, R193). `x0`, `y0` are the origin, `base` the address of the first row byte. -/
def spriteBit (m : Memory) (base x0 y0 n : Nat) (x : Fin 64) (y : Fin 32) : Bool :=
  decide (x0 ≤ x.val ∧ x.val < x0 + 8 ∧ y0 ≤ y.val ∧ y.val < y0 + n) &&
    (Memory.read m (base + (y.val - y0))).getLsbD (7 - (x.val - x0))

/-- The number of beeps among what left the block (60_exceptions.md rule R247). -/
def beepCount (s : State) : Nat := s.outputs.count .beep

end Sys2Proof.Machine
end

