-- ==== Sys2Proof/Certificates/Slice0/Obligations.lean ====
section
/-! DEFINITION. The statements for the provers. `I` in a comment is the state's field `i`. A frame is written
`{ t with pc := s.pc, … } = s`: `t` agrees with `s` in every field but those named. -/

open Sys2Proof
open Sys2Proof.Machine

/-! ### Encoding and decoding -/

/-- The eleven worked encodings of 30_encoding.md section 6 decode as they are written there, the three words it calls
illegal among them (their strictness is the spec's own decision D2, log 6). -/
def Obligations.SpecWordsDecodeAsWritten : Prop :=
  decodeWord 0x6000 = .instr (.ldImm 0 0) ∧ decodeWord 0x1200 = .instr (.jp 0x200) ∧
  decodeWord 0x7103 = .instr (.addImm 1 3) ∧ decodeWord 0x8AB4 = .instr (.addReg 0xA 0xB) ∧
  decodeWord 0xD125 = .instr (.drw 1 2 5) ∧ decodeWord 0xF265 = .instr (.loadRegs 2) ∧
  decodeWord 0xE19E = .instr (.skp 1) ∧ decodeWord 0x5120 = .instr (.seReg 1 2) ∧
  decodeWord 0x5121 = .illegal 0x5121 ∧ decodeWord 0x0100 = .illegal 0x0100 ∧ decodeWord 0xF0FF = .illegal 0xF0FF

/-- The decoder undoes the encoder on every well-formed instruction, with every operand at every value its field
admits: no bit of an encoding is dropped (30_encoding.md sections 2 to 4). -/
def Obligations.DecodeOfEncodeIsTheInstruction : Prop :=
  ∀ i : Instr, i.wellFormed = true → decodeWord (encode i) = .instr i

/-- Each word has one meaning: when it decodes to an instruction, that instruction is well-formed and its encoding is
the word, the ignored field Y of 8XY6 and 8XYE included (30_encoding.md section 4). -/
def Obligations.EncodeOfDecodeIsTheWord : Prop :=
  ∀ (op : Word) (i : Instr), decodeWord op = .instr i → encode i = op ∧ i.wellFormed = true

/-- A word decodes to Illegal exactly when it is in the spec's list of illegal words, and to an instruction otherwise
(30_encoding.md section 4; the list rests on the spec's own decision D2, strict matching, log 6). -/
def Obligations.IllegalWordsAreTheListedOnes : Prop :=
  ∀ op : Word, (decodeWord op = .illegal op ↔ isIllegalWord op = true) ∧
    ((∃ i, decodeWord op = .instr i) ↔ isIllegalWord op = false)

/-- The 35 rows are pairwise disjoint; a word that decodes to an instruction is selected by that instruction's row,
which is one of the 35; a word some row selects decodes to an instruction (30_encoding.md section 4; the masks rest on
the spec's own decision D2, log 6). -/
def Obligations.DecodeFollowsTheOpcodeMap : Prop :=
  (∀ r ∈ opcodeMap, ∀ q ∈ opcodeMap, ∀ op : Word, r.selects op → q.selects op → r = q) ∧
  (∀ (op : Word) (i : Instr), decodeWord op = .instr i → i.row ∈ opcodeMap ∧ i.row.selects op) ∧
  (∀ op : Word, (∃ r ∈ opcodeMap, r.selects op) → ∃ i, decodeWord op = .instr i)

/-! ### The cycle and the step -/

/-- The fetch is big-endian: the word is mem[pc] * 256 + mem[pc + 1], whatever pc is (20_memory.md rule R62). -/
def Obligations.FetchIsBigEndian : Prop :=
  ∀ s : State, s.fetchWord.toNat =
    (Memory.read s.mem s.pc.toNat).toNat * 256 + (Memory.read s.mem (s.pc.toNat + 1)).toNat

/-- When the bytes at pc decode to an instruction and a cycle is due, the step is that instruction's exec at the state
after the handshake owed to the cycle before and with the fetched word latched in opcode. Every step takes the first
event of the infinite order to come, upcoming, and what it takes off that order is that event and nothing else. The
order, a finite schedule followed by an open or a repeating source, is the model's form of the spec's own decision
D32, log 1; the place of the handshake is the model's choice over D24, log 14 (30_encoding.md section 1,
60_exceptions.md sections 9 and 11). -/
def Obligations.StepRunsTheDecodedInstruction : Prop :=
  ∀ s : State,
    (∀ i : Instr, s.pc.toNat ≤ 0xFFE → decodeBytes (Memory.readBytes s.mem s.pc.toNat 2) = .instr i → s.CycleDue →
      step s = exec i ((handshake s.dropNext).latch s.fetchWord)) ∧
    step s = takeEvent (s.upcoming 0) s.dropNext ∧
    (∀ n, s.dropNext.upcoming n = s.upcoming (n + 1)) ∧
    { s.dropNext with schedule := s.schedule, source := s.source } = s

/-- A cycle with pc above 0xFFE faults before decode, with the lowest offending address, max(pc, 0x1000) (the spec's
own decision D8, log 8). -/
def Obligations.FetchBeyondMemoryFaults : Prop :=
  ∀ s : State, 0xFFE < s.pc.toNat → cycle s = .fault (.memoryOutOfRange (max s.pc.toNat 0x1000))

/-- A cycle that fetches an illegal word answers fail, has number 1, and changes nothing but the opcode latch and
halted (60_exceptions.md section 1; the state it leaves is the spec's own decision D15, log 7). -/
def Obligations.IllegalWordHaltsTheBlock : Prop :=
  ∀ s : State, s.pc.toNat ≤ 0xFFE → isIllegalWord s.fetchWord = true →
    cycle s = .next { s with opcode := s.fetchWord, halted := true } ∧
    answerOf (cycle s) = some .fail ∧ outcomeNumber (cycle s) = some 1

/-- A faulting cycle has no answer and the number of its reason; recorded, it leaves the block as it was but for the
reason, and from then on the scheduler's turn takes no cycle. The numbers are 2, 3, 4 and 5, and the info values the
pc, the pc, the address and the key index (60_exceptions.md section 2; faults are the spec's own decisions D7, D8, D9
and D21, log 8). -/
def Obligations.FaultIsRecordedAndStops : Prop :=
  (∀ (s : State) (r : Fault), cycle s = .fault r →
    answerOf (cycle s) = none ∧ outcomeNumber (cycle s) = some (faultNumber r) ∧
    (recordOutcome s (cycle s)).fault = some r ∧
    { recordOutcome s (cycle s) with fault := s.fault } = s ∧
    schedulerTurn (recordOutcome s (cycle s)) = .fault r) ∧
  (∀ pc : Word, faultNumber (.stackOverflow pc) = 2 ∧ faultInfo (.stackOverflow pc) = pc.toNat) ∧
  (∀ pc : Word, faultNumber (.stackUnderflow pc) = 3 ∧ faultInfo (.stackUnderflow pc) = pc.toNat) ∧
  (∀ a : Nat, faultNumber (.memoryOutOfRange a) = 4 ∧ faultInfo (.memoryOutOfRange a) = a) ∧
  (∀ k : Byte, faultNumber (.keyIndexOutOfRange k) = 5 ∧ faultInfo (.keyIndexOutOfRange k) = k.toNat)

/-! ### Control flow -/

/-- 0000 completes, advances pc by 2 and changes nothing else: no register, no byte of memory, no other field
(40_flow.md rule R121). -/
def Obligations.NopOnlyAdvances : Prop :=
  ∀ s : State, encode .nop = 0x0000 ∧
    ∃ t, exec .nop s = .next t ∧ t.pc = s.pc + 2 ∧ (∀ r, t.getV r = s.getV r) ∧
      (∀ a, Memory.read t.mem a = Memory.read s.mem a) ∧ { t with pc := s.pc } = s

/-- 00EE with sp from 1 to 15 completes: sp falls by 1, pc is the popped entry plus 2, the entry stays in the stack
and nothing else changes. With sp = 0 it faults and changes nothing. Which side adds the 2 and the stack's limits are
the spec's own decisions D6 and D7, log 13 and log 8 (40_flow.md section 2). -/
def Obligations.ReturnPopsTheStack : Prop :=
  ∀ s : State, encode .ret = 0x00EE ∧
    (∀ k : Fin 16, s.sp.toNat = k.val + 1 → s.sp.toNat ≤ 15 →
      ∃ t, exec .ret s = .next t ∧ t.sp.toNat = k.val ∧ t.pc = s.stack[k] + 2 ∧ (∀ r, t.getV r = s.getV r) ∧
        (∀ a, Memory.read t.mem a = Memory.read s.mem a) ∧ { t with pc := s.pc, sp := s.sp } = s) ∧
    (s.sp = 0 → exec .ret s = .fault (.stackUnderflow s.pc))

/-- 1NNN completes, puts NNN zero-extended in pc and changes nothing else (40_flow.md rule R123). -/
def Obligations.JumpSetsPc : Prop :=
  ∀ (nnn : Imm12) (s : State), encode (.jp nnn) = formatA 0x1 nnn ∧
    ∃ t, exec (.jp nnn) s = .next t ∧ t.pc.toNat = nnn.toNat ∧ (∀ r, t.getV r = s.getV r) ∧
      (∀ a, Memory.read t.mem a = Memory.read s.mem a) ∧ { t with pc := s.pc } = s

/-- 2NNN with sp from 0 to 14 completes: the entry sp names holds the address of the call, the others are unchanged,
sp rises by 1, pc is NNN and nothing else changes. With sp = 15 it faults and changes nothing. The value pushed and
the stack's limits are the spec's own decisions D6 and D7, log 13 and log 8 (40_flow.md section 3). -/
def Obligations.CallPushesItsAddress : Prop :=
  ∀ (nnn : Imm12) (s : State), encode (.call nnn) = formatA 0x2 nnn ∧
    (∀ k : Fin 16, s.sp.toNat = k.val → k.val < 15 →
      ∃ t, exec (.call nnn) s = .next t ∧ t.stack[k] = s.pc ∧ (∀ j : Fin 16, j ≠ k → t.stack[j] = s.stack[j]) ∧
        t.sp.toNat = k.val + 1 ∧ t.pc.toNat = nnn.toNat ∧ (∀ r, t.getV r = s.getV r) ∧
        (∀ a, Memory.read t.mem a = Memory.read s.mem a) ∧
        { t with pc := s.pc, sp := s.sp, stack := s.stack } = s) ∧
    (s.sp.toNat = 15 → exec (.call nnn) s = .fault (.stackOverflow s.pc))

/-- Whatever a subroutine does, calls of its own included, if the entry the call wrote and the pointer are as the call
left them when it returns, its return completes, resumes 2 after the call and puts the pointer back where it was
(40_flow.md sections 2 and 3; the stack's use is the spec's own decision D6, log 13). -/
def Obligations.ReturnResumesAfterTheCall : Prop :=
  ∀ (nnn : Imm12) (s t u : State), exec (.call nnn) s = .next t →
    (∀ k : Fin 16, s.sp.toNat = k.val → u.stack[k] = t.stack[k]) → u.sp = t.sp →
    ∃ w, exec .ret u = .next w ∧ w.pc = s.pc + 2 ∧ w.sp = s.sp

/-- 3XNN and 4XNN complete, advance pc by 4 when their condition holds and by 2 otherwise, and change nothing else
(40_flow.md rules R125, R126). -/
def Obligations.ImmediateSkipsAdvanceTwoOrFour : Prop :=
  ∀ (x : Reg) (nn : Byte) (s : State),
    encode (.seImm x nn) = formatXK 0x3 x nn ∧ encode (.sneImm x nn) = formatXK 0x4 x nn ∧
    (∃ t, exec (.seImm x nn) s = .next t ∧ t.pc = s.pc + (if (s.getV x).toNat = nn.toNat then 4 else 2) ∧
      (∀ r, t.getV r = s.getV r) ∧ (∀ a, Memory.read t.mem a = Memory.read s.mem a) ∧ { t with pc := s.pc } = s) ∧
    (∃ t, exec (.sneImm x nn) s = .next t ∧ t.pc = s.pc + (if (s.getV x).toNat = nn.toNat then 2 else 4) ∧
      (∀ r, t.getV r = s.getV r) ∧ (∀ a, Memory.read t.mem a = Memory.read s.mem a) ∧ { t with pc := s.pc } = s)

/-- 5XY0 and 9XY0 complete, advance pc by 4 when their condition holds and by 2 otherwise, and change nothing else, X
= Y included (40_flow.md rules R127, R128). -/
def Obligations.RegisterSkipsAdvanceTwoOrFour : Prop :=
  ∀ (x y : Reg) (s : State),
    encode (.seReg x y) = formatXYN 0x5 x y 0x0 ∧ encode (.sneReg x y) = formatXYN 0x9 x y 0x0 ∧
    (∃ t, exec (.seReg x y) s = .next t ∧ t.pc = s.pc + (if (s.getV x).toNat = (s.getV y).toNat then 4 else 2) ∧
      (∀ r, t.getV r = s.getV r) ∧ (∀ a, Memory.read t.mem a = Memory.read s.mem a) ∧ { t with pc := s.pc } = s) ∧
    (∃ t, exec (.sneReg x y) s = .next t ∧ t.pc = s.pc + (if (s.getV x).toNat = (s.getV y).toNat then 2 else 4) ∧
      (∀ r, t.getV r = s.getV r) ∧ (∀ a, Memory.read t.mem a = Memory.read s.mem a) ∧ { t with pc := s.pc } = s)

/-- BNNN completes, puts NNN + V0 in pc and changes nothing else; that the sum is not masked to 12 bits is the spec's
own decision D29, log 22 (40_flow.md section 5). -/
def Obligations.ComputedJumpAddsV0 : Prop :=
  ∀ (nnn : Imm12) (s : State), encode (.jpV0 nnn) = formatA 0xB nnn ∧
    ∃ t, exec (.jpV0 nnn) s = .next t ∧ t.pc.toNat = nnn.toNat + (s.getV V0).toNat ∧ (∀ r, t.getV r = s.getV r) ∧
      (∀ a, Memory.read t.mem a = Memory.read s.mem a) ∧ { t with pc := s.pc } = s

/-! ### Register loads, arithmetic, logic, shifts -/

/-- 6XNN writes NN and 8XY0 writes V[Y] to V[X]; both complete, advance pc by 2 and change nothing else (41_alu.md
rules R141, R143). -/
def Obligations.LoadsWriteVx : Prop :=
  ∀ (x y : Reg) (nn : Byte) (s : State),
    encode (.ldImm x nn) = formatXK 0x6 x nn ∧ encode (.ldReg x y) = formatXYN 0x8 x y 0x0 ∧
    (∃ t, exec (.ldImm x nn) s = .next t ∧ t.getV x = nn ∧ t.pc = s.pc + 2 ∧ (∀ r, r ≠ x → t.getV r = s.getV r) ∧
      (∀ a, Memory.read t.mem a = Memory.read s.mem a) ∧ { t with pc := s.pc, v := s.v } = s) ∧
    (∃ t, exec (.ldReg x y) s = .next t ∧ t.getV x = s.getV y ∧ t.pc = s.pc + 2 ∧
      (∀ r, r ≠ x → t.getV r = s.getV r) ∧ (∀ a, Memory.read t.mem a = Memory.read s.mem a) ∧
      { t with pc := s.pc, v := s.v } = s)

/-- 7XNN completes, adds NN to V[X] mod 256, advances pc by 2 and changes nothing else: VF is written only as V[X]
(41_alu.md rule R142). -/
def Obligations.AddImmediateWraps : Prop :=
  ∀ (x : Reg) (nn : Byte) (s : State), encode (.addImm x nn) = formatXK 0x7 x nn ∧
    ∃ t, exec (.addImm x nn) s = .next t ∧ (t.getV x).toNat = ((s.getV x).toNat + nn.toNat) % 256 ∧
      t.pc = s.pc + 2 ∧ (∀ r, r ≠ x → t.getV r = s.getV r) ∧ (∀ a, Memory.read t.mem a = Memory.read s.mem a) ∧
      { t with pc := s.pc, v := s.v } = s

/-- 8XY1, 8XY2 and 8XY3 complete, write the or, the and, and the exclusive or of V[X] and V[Y] to V[X] bit by bit,
advance pc by 2 and change nothing else (41_alu.md rules R144, R145, R146). -/
def Obligations.BitwiseInstructionsWriteVx : Prop :=
  ∀ (x y : Reg) (s : State),
    encode (.or x y) = formatXYN 0x8 x y 0x1 ∧ encode (.and x y) = formatXYN 0x8 x y 0x2 ∧
    encode (.xor x y) = formatXYN 0x8 x y 0x3 ∧
    (∃ t, exec (.or x y) s = .next t ∧
      (∀ b, (t.getV x).getLsbD b = ((s.getV x).getLsbD b || (s.getV y).getLsbD b)) ∧ t.pc = s.pc + 2 ∧
      (∀ r, r ≠ x → t.getV r = s.getV r) ∧ (∀ a, Memory.read t.mem a = Memory.read s.mem a) ∧
      { t with pc := s.pc, v := s.v } = s) ∧
    (∃ t, exec (.and x y) s = .next t ∧
      (∀ b, (t.getV x).getLsbD b = ((s.getV x).getLsbD b && (s.getV y).getLsbD b)) ∧ t.pc = s.pc + 2 ∧
      (∀ r, r ≠ x → t.getV r = s.getV r) ∧ (∀ a, Memory.read t.mem a = Memory.read s.mem a) ∧
      { t with pc := s.pc, v := s.v } = s) ∧
    (∃ t, exec (.xor x y) s = .next t ∧
      (∀ b, (t.getV x).getLsbD b = ((s.getV x).getLsbD b ^^ (s.getV y).getLsbD b)) ∧ t.pc = s.pc + 2 ∧
      (∀ r, r ≠ x → t.getV r = s.getV r) ∧ (∀ a, Memory.read t.mem a = Memory.read s.mem a) ∧
      { t with pc := s.pc, v := s.v } = s)

/-- 8XY4 completes: V[X] is the sum mod 256 unless X = 0xF; VF is 1 when V[Y] exceeds 0xFF - V[X], both read after the
sum was written, else 0; pc advances by 2 and nothing else changes. The forms with X or Y = 0xF and the width of the
comparison are the spec's own decisions D3 and D4, log 10 (41_alu.md section 4). -/
def Obligations.AddSetsThePostAddFlag : Prop :=
  ∀ (x y : Reg) (s : State), encode (.addReg x y) = formatXYN 0x8 x y 0x4 ∧
    ∃ t, exec (.addReg x y) s = .next t ∧
      (x ≠ VF → (t.getV x).toNat = ((s.getV x).toNat + (s.getV y).toNat) % 256) ∧
      t.getV VF =
        (if (if y = x then ((s.getV x).toNat + (s.getV y).toNat) % 256 else (s.getV y).toNat) >
            255 - ((s.getV x).toNat + (s.getV y).toNat) % 256 then 1 else 0) ∧
      t.pc = s.pc + 2 ∧ (∀ r, r ≠ x → r ≠ VF → t.getV r = s.getV r) ∧
      (∀ a, Memory.read t.mem a = Memory.read s.mem a) ∧ { t with pc := s.pc, v := s.v } = s

/-- 8XY5 completes: VF is first 0 when V[Y] exceeds V[X] and 1 otherwise; then V[X] is V[X] - V[Y] mod 256, both read
after VF was written; pc advances by 2 and nothing else changes. The forms with X or Y = 0xF are the spec's own
decision D3, log 10 (41_alu.md section 4). -/
def Obligations.SubtractSetsNoBorrowFirst : Prop :=
  ∀ (x y : Reg) (s : State), encode (.sub x y) = formatXYN 0x8 x y 0x5 ∧
    ∃ (t : State) (f : Byte), f = (if (s.getV y).toNat > (s.getV x).toNat then 0 else 1) ∧
      exec (.sub x y) s = .next t ∧
      (t.getV x).toNat = ((if x = VF then f else s.getV x).toNat + 256 - (if y = VF then f else s.getV y).toNat) % 256 ∧
      (x ≠ VF → t.getV VF = f) ∧ t.pc = s.pc + 2 ∧ (∀ r, r ≠ x → r ≠ VF → t.getV r = s.getV r) ∧
      (∀ a, Memory.read t.mem a = Memory.read s.mem a) ∧ { t with pc := s.pc, v := s.v } = s

/-- 8XY7 completes: VF is first 0 when V[X] exceeds V[Y] and 1 otherwise; then V[X] is V[Y] - V[X] mod 256, both read
after VF was written; pc advances by 2 and nothing else changes. The forms with X or Y = 0xF are the spec's own
decision D3, log 10 (41_alu.md section 4). -/
def Obligations.ReverseSubtractSetsNoBorrowFirst : Prop :=
  ∀ (x y : Reg) (s : State), encode (.subn x y) = formatXYN 0x8 x y 0x7 ∧
    ∃ (t : State) (f : Byte), f = (if (s.getV x).toNat > (s.getV y).toNat then 0 else 1) ∧
      exec (.subn x y) s = .next t ∧
      (t.getV x).toNat = ((if y = VF then f else s.getV y).toNat + 256 - (if x = VF then f else s.getV x).toNat) % 256 ∧
      (x ≠ VF → t.getV VF = f) ∧ t.pc = s.pc + 2 ∧ (∀ r, r ≠ x → r ≠ VF → t.getV r = s.getV r) ∧
      (∀ a, Memory.read t.mem a = Memory.read s.mem a) ∧ { t with pc := s.pc, v := s.v } = s

/-- 8XY6 completes: for X other than 0xF, V[X] is halved and VF is its old low bit; for X = 0xF the final VF is 0 (the
spec's own decision D3, log 10); Y plays no part; pc advances by 2 and nothing else changes (41_alu.md section 4). -/
def Obligations.ShiftRightSavesTheLowBit : Prop :=
  ∀ (x y : Reg) (s : State), encode (.shr x y) = formatXYN 0x8 x y 0x6 ∧
    ∃ t, exec (.shr x y) s = .next t ∧ (x ≠ VF → (t.getV x).toNat = (s.getV x).toNat / 2) ∧
      (x ≠ VF → (t.getV VF).toNat = (s.getV x).toNat % 2) ∧ (x = VF → t.getV VF = 0) ∧
      t.pc = s.pc + 2 ∧ (∀ r, r ≠ x → r ≠ VF → t.getV r = s.getV r) ∧
      (∀ a, Memory.read t.mem a = Memory.read s.mem a) ∧ { t with pc := s.pc, v := s.v } = s

/-- 8XYE completes: for X other than 0xF, V[X] is doubled mod 256 and VF is its old high bit; for X = 0xF the final VF
is twice that bit (the spec's own decision D3, log 10); Y plays no part; pc advances by 2 and nothing else changes
(41_alu.md section 4). -/
def Obligations.ShiftLeftSavesTheHighBit : Prop :=
  ∀ (x y : Reg) (s : State), encode (.shl x y) = formatXYN 0x8 x y 0xE ∧
    ∃ t, exec (.shl x y) s = .next t ∧ (x ≠ VF → (t.getV x).toNat = (s.getV x).toNat * 2 % 256) ∧
      (x ≠ VF → (t.getV VF).toNat = (s.getV x).toNat / 128) ∧
      (x = VF → (t.getV VF).toNat = 2 * ((s.getV x).toNat / 128)) ∧
      t.pc = s.pc + 2 ∧ (∀ r, r ≠ x → r ≠ VF → t.getV r = s.getV r) ∧
      (∀ a, Memory.read t.mem a = Memory.read s.mem a) ∧ { t with pc := s.pc, v := s.v } = s

/-- CXNN completes, writes a fresh free byte masked by NN to V[X], so that every bit outside NN is 0, advances pc by 2
and changes nothing else. The byte is the free value Config.rnd at the model's own counter draws, which the
instruction advances: the model's form of the spec's open input, log 2 (41_alu.md section 5). -/
def Obligations.RandomByteIsMasked : Prop :=
  ∀ (x : Reg) (nn : Byte) (s : State), encode (.rnd x nn) = formatXK 0xC x nn ∧
    ∃ t, exec (.rnd x nn) s = .next t ∧
      (∀ b, (t.getV x).getLsbD b = ((Config.rnd s.draws).getLsbD b && nn.getLsbD b)) ∧ t.draws = s.draws + 1 ∧
      t.pc = s.pc + 2 ∧ (∀ r, r ≠ x → t.getV r = s.getV r) ∧ (∀ a, Memory.read t.mem a = Memory.read s.mem a) ∧
      { t with pc := s.pc, v := s.v, draws := s.draws } = s

/-! ### Index register and memory -/

/-- ANNN puts NNN in I and FX29 puts V[X] * 5 there; both complete, advance pc by 2 and change nothing else. That the
whole byte is multiplied is the spec's own decision D31, log 23 (42_index_memory.md section 1). -/
def Obligations.IndexLoadsSetI : Prop :=
  ∀ (nnn : Imm12) (x : Reg) (s : State),
    encode (.ldI nnn) = formatA 0xA nnn ∧ encode (.ldF x) = formatXK 0xF x 0x29 ∧
    (∃ t, exec (.ldI nnn) s = .next t ∧ t.i.toNat = nnn.toNat ∧ t.pc = s.pc + 2 ∧ (∀ r, t.getV r = s.getV r) ∧
      (∀ a, Memory.read t.mem a = Memory.read s.mem a) ∧ { t with pc := s.pc, i := s.i } = s) ∧
    (∃ t, exec (.ldF x) s = .next t ∧ t.i.toNat = (s.getV x).toNat * 5 ∧ t.pc = s.pc + 2 ∧
      (∀ r, t.getV r = s.getV r) ∧ (∀ a, Memory.read t.mem a = Memory.read s.mem a) ∧
      { t with pc := s.pc, i := s.i } = s)

/-- FX1E completes: VF is 1 when I + V[X], on naturals, exceeds 0xFFF, else 0; then V[X], read after VF was written,
is added to I mod 65536; pc advances by 2 and nothing else changes. The wrap of I and the form with X = 0xF are the
spec's own decisions D5 and D3, log 11 and log 10 (42_index_memory.md section 1). -/
def Obligations.AddToIndexReportsRange : Prop :=
  ∀ (x : Reg) (s : State), encode (.addI x) = formatXK 0xF x 0x1E ∧
    ∃ (t : State) (f : Byte), f = (if s.i.toNat + (s.getV x).toNat > 0xFFF then 1 else 0) ∧
      exec (.addI x) s = .next t ∧ t.getV VF = f ∧
      t.i.toNat = (s.i.toNat + (if x = VF then f else s.getV x).toNat) % 65536 ∧ t.pc = s.pc + 2 ∧
      (∀ r, r ≠ VF → t.getV r = s.getV r) ∧ (∀ a, Memory.read t.mem a = Memory.read s.mem a) ∧
      { t with pc := s.pc, v := s.v, i := s.i } = s

/-- FX33 with I + 2 at most 0xFFF completes: the bytes at I, I + 1 and I + 2 are the hundreds, tens and ones of V[X],
every other byte, every register and I are unchanged, and pc advances by 2. Else it faults before any write (the
spec's own decision D8, log 8; 42_index_memory.md section 2). -/
def Obligations.BcdStoresThreeDigits : Prop :=
  ∀ (x : Reg) (s : State), encode (.ldB x) = formatXK 0xF x 0x33 ∧
    (s.i.toNat + 2 ≤ 0xFFF → ∃ t, exec (.ldB x) s = .next t ∧
      (Memory.read t.mem s.i.toNat).toNat = (s.getV x).toNat / 100 ∧
      (Memory.read t.mem (s.i.toNat + 1)).toNat = (s.getV x).toNat / 10 % 10 ∧
      (Memory.read t.mem (s.i.toNat + 2)).toNat = (s.getV x).toNat % 10 ∧
      (∀ a, a < s.i.toNat ∨ s.i.toNat + 3 ≤ a → Memory.read t.mem a = Memory.read s.mem a) ∧
      t.pc = s.pc + 2 ∧ (∀ r, t.getV r = s.getV r) ∧ { t with pc := s.pc, mem := s.mem } = s) ∧
    (0xFFF < s.i.toNat + 2 → exec (.ldB x) s = .fault (.memoryOutOfRange (max s.i.toNat 0x1000)))

/-- FX55 with I + X at most 0xFFF completes: the bytes at I to I + X are V[0] to V[X], every other byte and every
register are unchanged, I rises by X + 1 mod 65536 and pc advances by 2. Else it faults before any write. The width of
I and the fault are the spec's own decisions D5 and D8, log 11 and log 8 (42_index_memory.md section 2). -/
def Obligations.StoreRegistersMovesIndex : Prop :=
  ∀ (x : Reg) (s : State), encode (.storeRegs x) = formatXK 0xF x 0x55 ∧
    (s.i.toNat + x.val ≤ 0xFFF → ∃ t, exec (.storeRegs x) s = .next t ∧
      (∀ k : Reg, k ≤ x → Memory.read t.mem (s.i.toNat + k.val) = s.getV k) ∧
      (∀ a, a < s.i.toNat ∨ s.i.toNat + x.val < a → Memory.read t.mem a = Memory.read s.mem a) ∧
      t.i.toNat = (s.i.toNat + x.val + 1) % 65536 ∧ t.pc = s.pc + 2 ∧ (∀ r, t.getV r = s.getV r) ∧
      { t with pc := s.pc, mem := s.mem, i := s.i } = s) ∧
    (0xFFF < s.i.toNat + x.val → exec (.storeRegs x) s = .fault (.memoryOutOfRange (max s.i.toNat 0x1000)))

/-- FX65 with I + X at most 0xFFF completes: V[0] to V[X] are the bytes at I to I + X, the other registers and all of
memory are unchanged, I rises by X + 1 mod 65536 and pc advances by 2. Else it faults before any register is written.
The width of I and the fault are the spec's own decisions D5 and D8, log 11 and log 8 (42_index_memory.md section 2).
-/
def Obligations.LoadRegistersMovesIndex : Prop :=
  ∀ (x : Reg) (s : State), encode (.loadRegs x) = formatXK 0xF x 0x65 ∧
    (s.i.toNat + x.val ≤ 0xFFF → ∃ t, exec (.loadRegs x) s = .next t ∧
      (∀ k : Reg, k ≤ x → t.getV k = Memory.read s.mem (s.i.toNat + k.val)) ∧
      (∀ k : Reg, x < k → t.getV k = s.getV k) ∧ (∀ a, Memory.read t.mem a = Memory.read s.mem a) ∧
      t.i.toNat = (s.i.toNat + x.val + 1) % 65536 ∧ t.pc = s.pc + 2 ∧
      { t with pc := s.pc, v := s.v, i := s.i } = s) ∧
    (0xFFF < s.i.toNat + x.val → exec (.loadRegs x) s = .fault (.memoryOutOfRange (max s.i.toNat 0x1000)))

/-- After FX55 has completed, with memory as it left it and I set back, FX65 with the same X completes and restores
V[0] to V[X], whatever the registers held in between; the registers above X stay as they are and I ends where FX55
left it (42_index_memory.md section 2). -/
def Obligations.LoadUndoesStore : Prop :=
  ∀ (x : Reg) (s t u : State), exec (.storeRegs x) s = .next t → u.mem = t.mem → u.i = s.i →
    ∃ w, exec (.loadRegs x) u = .next w ∧ (∀ k : Reg, k ≤ x → w.getV k = s.getV k) ∧
      (∀ k : Reg, x < k → w.getV k = u.getV k) ∧ w.i = t.i

/-! ### The framebuffer engine -/

/-- 00E0 completes, clears all 64 by 32 cells, sets the dirty flag whether or not a cell was lit, advances pc by 2 and
changes nothing else, VF included (43_display.md rule R191). -/
def Obligations.ClearBlanksTheFramebuffer : Prop :=
  ∀ s : State, encode .cls = 0x00E0 ∧
    ∃ t, exec .cls s = .next t ∧ (∀ (x : Fin 64) (y : Fin 32), cellAt t.fb x y = false) ∧ t.dirty = true ∧
      t.pc = s.pc + 2 ∧ (∀ r, t.getV r = s.getV r) ∧ (∀ a, Memory.read t.mem a = Memory.read s.mem a) ∧
      { t with pc := s.pc, fb := s.fb, dirty := s.dirty } = s

/-- DXYN with its N bytes in memory, or N = 0, completes: a cell is toggled exactly when it lies under a set bit of
the sprite, bit 7 leftmost, the origin wrapped and the edges clipped; VF is 1 when a lit cell was erased and 0 when
none was; dirty is set, pc advances by 2 and nothing else changes. With a byte above 0xFFF it faults before any
change. Wrapping and clipping, the clearing of VF, the bit order and the fault are the spec's own decisions D10, D11
and D8, log 12 and log 8 (43_display.md section 3). -/
def Obligations.DrawTogglesTheSpriteCells : Prop :=
  ∀ (x y : Reg) (n : Nat) (s : State), encode (.drw x y n) = formatXYN 0xD x y (BitVec.ofNat 4 n) ∧
    (n = 0 ∨ s.i.toNat + (n - 1) ≤ 0xFFF → ∃ t, exec (.drw x y n) s = .next t ∧
      (∀ (cx : Fin 64) (cy : Fin 32), cellAt t.fb cx cy =
        (cellAt s.fb cx cy ^^
          spriteBit s.mem s.i.toNat ((s.getV x).toNat % 64) ((s.getV y).toNat % 32) n cx cy)) ∧
      ((∃ (cx : Fin 64) (cy : Fin 32), cellAt s.fb cx cy = true ∧ cellAt t.fb cx cy = false) → t.getV VF = 1) ∧
      ((∀ (cx : Fin 64) (cy : Fin 32), cellAt s.fb cx cy = true → cellAt t.fb cx cy = true) → t.getV VF = 0) ∧
      t.dirty = true ∧ t.pc = s.pc + 2 ∧ (∀ r, r ≠ VF → t.getV r = s.getV r) ∧
      (∀ a, Memory.read t.mem a = Memory.read s.mem a) ∧
      { t with pc := s.pc, v := s.v, fb := s.fb, dirty := s.dirty } = s) ∧
    (0 < n → 0xFFF < s.i.toNat + (n - 1) →
      exec (.drw x y n) s = .fault (.memoryOutOfRange (max s.i.toNat 0x1000)))

/-- When a draw has completed and left its two coordinates at the same place, in VF or in any other register, the same
draw from the state it left completes and restores every cell (43_display.md section 3, an inference the spec draws
itself; the drawing rules are its decisions D10 and D11, log 12). -/
def Obligations.DrawingTwiceRestores : Prop :=
  ∀ (x y : Reg) (n : Nat) (s t : State), exec (.drw x y n) s = .next t →
    (t.getV x).toNat % 64 = (s.getV x).toNat % 64 → (t.getV y).toNat % 32 = (s.getV y).toNat % 32 →
    ∃ u, exec (.drw x y n) t = .next u ∧ u.fb = s.fb

/-! ### Timer access and keyboard instructions -/

/-- FX07 copies DT to V[X], FX15 copies V[X] to DT, FX18 copies V[X] to ST; each completes, advances pc by 2 and
changes nothing else. That FX18 emits no beep is the spec's own decision D19, log 18 (44_timer_key_instr.md section
1). -/
def Obligations.TimerInstructionsMoveOneCounter : Prop :=
  ∀ (x : Reg) (s : State),
    encode (.ldVxDt x) = formatXK 0xF x 0x07 ∧ encode (.ldDtVx x) = formatXK 0xF x 0x15 ∧
    encode (.ldStVx x) = formatXK 0xF x 0x18 ∧
    (∃ t, exec (.ldVxDt x) s = .next t ∧ t.getV x = s.dt ∧ t.pc = s.pc + 2 ∧ (∀ r, r ≠ x → t.getV r = s.getV r) ∧
      (∀ a, Memory.read t.mem a = Memory.read s.mem a) ∧ { t with pc := s.pc, v := s.v } = s) ∧
    (∃ t, exec (.ldDtVx x) s = .next t ∧ t.dt = s.getV x ∧ t.pc = s.pc + 2 ∧ (∀ r, t.getV r = s.getV r) ∧
      (∀ a, Memory.read t.mem a = Memory.read s.mem a) ∧ { t with pc := s.pc, dt := s.dt } = s) ∧
    (∃ t, exec (.ldStVx x) s = .next t ∧ t.st = s.getV x ∧ t.pc = s.pc + 2 ∧ (∀ r, t.getV r = s.getV r) ∧
      (∀ a, Memory.read t.mem a = Memory.read s.mem a) ∧ { t with pc := s.pc, st := s.st } = s)

/-- With V[X] at most 15, EX9E skips when key V[X] is pressed and EXA1 when it is not; both complete and change
nothing but pc. With V[X] above 15 both fault and change nothing: the spec's own decision D9, log 8
(44_timer_key_instr.md section 2). -/
def Obligations.KeySkipsTestTheFlag : Prop :=
  ∀ (x : Reg) (s : State), encode (.skp x) = formatXK 0xE x 0x9E ∧ encode (.sknp x) = formatXK 0xE x 0xA1 ∧
    (∀ k : Key, (s.getV x).toNat = k.val →
      (∃ t, exec (.skp x) s = .next t ∧ t.pc = s.pc + (if s.key[k] = true then 4 else 2) ∧
        (∀ r, t.getV r = s.getV r) ∧ (∀ a, Memory.read t.mem a = Memory.read s.mem a) ∧ { t with pc := s.pc } = s) ∧
      (∃ t, exec (.sknp x) s = .next t ∧ t.pc = s.pc + (if s.key[k] = true then 2 else 4) ∧
        (∀ r, t.getV r = s.getV r) ∧ (∀ a, Memory.read t.mem a = Memory.read s.mem a) ∧ { t with pc := s.pc } = s)) ∧
    (15 < (s.getV x).toNat → exec (.skp x) s = .fault (.keyIndexOutOfRange (s.getV x)) ∧
      exec (.sknp x) s = .fault (.keyIndexOutOfRange (s.getV x)))

/-- FX0A writes the least pressed key to V[X] and advances pc by 2, changing nothing else; with no key pressed it
completes and changes nothing; the answer is ok either way (44_timer_key_instr.md rule R215). -/
def Obligations.KeyWaitTakesTheLeastKey : Prop :=
  ∀ (x : Reg) (s : State), encode (.ldVxKey x) = formatXK 0xF x 0x0A ∧
    (∀ k : Key, s.key[k] = true → (∀ j : Key, j < k → s.key[j] = false) →
      ∃ t, exec (.ldVxKey x) s = .next t ∧ (t.getV x).toNat = k.val ∧ t.pc = s.pc + 2 ∧
        (∀ r, r ≠ x → t.getV r = s.getV r) ∧ (∀ a, Memory.read t.mem a = Memory.read s.mem a) ∧
        { t with pc := s.pc, v := s.v } = s) ∧
    ((∀ k : Key, s.key[k] = false) → exec (.ldVxKey x) s = .next s) ∧
    (s.halted = false → answerOf (exec (.ldVxKey x) s) = some .ok)

/-! ### The timer unit -/

/-- The delay sub-step takes 1 from DT unless it is 0; the sound sub-step takes 1 from ST unless it is 0 and emits one
beep exactly on the step from 1 to 0; neither changes anything else (60_exceptions.md section 7). That a beep emitted
is one more entry at the head of outputs is the model's choice, log 18. -/
def Obligations.TickSubStepsCountDown : Prop :=
  ∀ s : State,
    (delaySubStep s).dt.toNat = s.dt.toNat - 1 ∧ { delaySubStep s with dt := s.dt } = s ∧
    (soundSubStep s).st.toNat = s.st.toNat - 1 ∧
    (soundSubStep s).outputs = (if s.st.toNat = 1 then .beep :: s.outputs else s.outputs) ∧
    { soundSubStep s with st := s.st, outputs := s.outputs } = s

/-- From between ticks, while running, the unit's step is the delay sub-step and its next the sound sub-step, together
a tick; a started tick completes whatever running is; none starts while running is 0. The two-step form is the spec's
own decision D18, log 17; the shutdown is D25, log 19 (60_exceptions.md section 7). -/
def Obligations.TimerStepsMakeTicks : Prop :=
  ∀ s : State,
    (s.tickPhase = .idle → s.running = true →
      timerStep s = { delaySubStep s with tickPhase := .soundDue } ∧ timerStep (timerStep s) = tick s) ∧
    (s.tickPhase = .soundDue → timerStep s = { soundSubStep s with tickPhase := .idle }) ∧
    (s.tickPhase = .idle → s.running = false → timerStep s = s)

/-- n ticks with no write between take DT and ST to max(d - n, 0), and one beep is emitted exactly when ST was at
least 1 and has come to 0 (60_exceptions.md section 7, an inference the spec draws itself). -/
def Obligations.TicksCountDownToZero : Prop :=
  ∀ (n : Nat) (s : State),
    (tick^[n] s).dt.toNat = s.dt.toNat - n ∧ (tick^[n] s).st.toNat = s.st.toNat - n ∧
    beepCount (tick^[n] s) = beepCount s + (if 1 ≤ s.st.toNat ∧ s.st.toNat ≤ n then 1 else 0)

/-! ### The keyboard unit -/

/-- A press sets the key's flag and its deadline 100 ms ahead; an inspection clears both exactly when there is a
deadline and the time has reached it, and does nothing otherwise; neither touches anything else. That elapsed means
now >= deadline is the spec's own decision D16, log 15 (60_exceptions.md section 8). -/
def Obligations.PressAndExpireMoveOneKey : Prop :=
  ∀ (k : Key) (now : Nat) (s : State),
    (press k now s).key[k] = true ∧ (press k now s).expiry[k] = now + 100 ∧
    (∀ j : Key, j ≠ k → (press k now s).key[j] = s.key[j] ∧ (press k now s).expiry[j] = s.expiry[j]) ∧
    { press k now s with key := s.key, expiry := s.expiry } = s ∧
    (s.expiry[k] ≠ 0 → s.expiry[k] ≤ now →
      (inspectKey k now s).key[k] = false ∧ (inspectKey k now s).expiry[k] = 0 ∧
      (∀ j : Key, j ≠ k → (inspectKey k now s).key[j] = s.key[j] ∧ (inspectKey k now s).expiry[j] = s.expiry[j]) ∧
      { inspectKey k now s with key := s.key, expiry := s.expiry } = s) ∧
    (s.expiry[k] = 0 ∨ now < s.expiry[k] → inspectKey k now s = s)

/-- The keyboard unit's atomic steps at one time, with no other agent between them, are the poll iteration: one start,
one press for each key-down available, sixteen inspections; between iterations, while running is 0, no iteration
starts. The form of the steps is the model's choice over the spec's decisions D16 and D17, log 15 and log 16
(60_exceptions.md section 8). -/
def Obligations.KeyboardStepsMakeAPoll : Prop :=
  ∀ (now : Nat) (s : State), s.keyboard = .idle →
    (s.running = true → (keyboardStep now)^[s.keyQueue.length + 17] s = poll now s) ∧
    (s.running = false → keyboardStep now s = { s with now := now })

/-- What a poll iteration does to one key: a key with a press waiting ends pressed, its deadline 100 ms ahead; a key
with none whose deadline the time has reached is released; any other stays as it was (60_exceptions.md section 8; the
order and the meaning of elapsed are the spec's own decision D16, log 15 and log 16). -/
def Obligations.PollReleasesDueKeys : Prop :=
  ∀ (now : Nat) (s : State) (k : Key),
    (k ∈ s.keyQueue → (poll now s).key[k] = true ∧ (poll now s).expiry[k] = now + 100) ∧
    (k ∉ s.keyQueue → s.expiry[k] ≠ 0 → s.expiry[k] ≤ now → (poll now s).key[k] = false ∧ (poll now s).expiry[k] = 0) ∧
    (k ∉ s.keyQueue → (s.expiry[k] = 0 ∨ now < s.expiry[k]) →
      (poll now s).key[k] = s.key[k] ∧ (poll now s).expiry[k] = s.expiry[k])

/-- From every state with the model's invariant, over every step of every agent that answers a next state, a pressed
key stays pressed as long as the unit's time has not reached its deadline, and the deadline only moves later
(60_exceptions.md section 8, an inference the spec draws itself; time is log 15). -/
def Obligations.PressedKeyHoldsUntilItsDeadline : Prop :=
  ∀ (s t : State) (k : Key), s.Inv → step s = .next t → s.key[k] = true → t.now < s.expiry[k] →
    t.key[k] = true ∧ s.expiry[k] ≤ t.expiry[k]

/-! ### The host -/

/-- The dirty handshake hands a dirty framebuffer over and clears the flag; with the flag clear, or after a failed
cycle, it does nothing; taken twice it is taken once. Its place is the spec's own decision D24, log 14; what is handed
over is one more entry of outputs, log 18 (60_exceptions.md section 9). -/
def Obligations.HandshakeHandsOverOnce : Prop :=
  ∀ s : State,
    (s.dirty = true → s.halted = false →
      handshake s = { s with dirty := false, outputs := .frame s.fb :: s.outputs }) ∧
    (s.dirty = false ∨ s.halted = true → handshake s = s) ∧ handshake (handshake s) = handshake s

/-- The scheduler's turn after a failed cycle clears running. With running 0, no step of any agent changes the
interpreter's state or starts a tick or a poll iteration. Once both units are idle and no handshake is owed, the
scheduler's turn changes nothing. The shutdown is the spec's own decision D25, log 19 (60_exceptions.md section 9). -/
def Obligations.ShutdownStartsNothing : Prop :=
  (∀ s : State, s.fault = none → s.running = true → s.halted = true →
    schedulerTurn s = .next { s with running := false }) ∧
  (∀ s t : State, s.running = false → step s = .next t →
    t.v = s.v ∧ t.i = s.i ∧ t.pc = s.pc ∧ t.stack = s.stack ∧ t.sp = s.sp ∧ t.mem = s.mem ∧ t.fb = s.fb ∧
    t.opcode = s.opcode ∧ (s.tickPhase = .idle → t.tickPhase = .idle ∧ t.dt = s.dt ∧ t.st = s.st) ∧
    (s.keyboard = .idle → t.keyboard = .idle ∧ t.key = s.key ∧ t.expiry = s.expiry)) ∧
  (∀ s : State, s.fault = none → s.running = false → s.dirty = false → s.tickPhase = .idle → s.keyboard = .idle →
    schedulerTurn s = .next s)

/-- A status snapshot shows pc, I, opcode, the registers, the stack and the two timers as they are, and changes
nothing but the model's own record of what left the block, log 18 (60_exceptions.md section 9; its atomicity is the
spec's own decision D30). -/
def Obligations.SnapshotOnlyReads : Prop :=
  ∀ s : State, ∃ (t : State) (snap : Status), takeEvent .snapshot s = .next t ∧
    snap.pc = s.pc ∧ snap.i = s.i ∧ snap.opcode = s.opcode ∧ snap.v = s.v ∧ snap.stack = s.stack ∧
    snap.dt = s.dt ∧ snap.st = s.st ∧ t = { s with outputs := .status snap :: s.outputs }

/-! ### Boot and reset -/

/-- For any font of 80 bytes: an image of fewer than 2 bytes gives no block; else memory holds the font at 0x000, at
most 3584 bytes of the image at 0x200 and 0 elsewhere, in canonical form, and every other field is as after reset;
boot itself takes the default font, log 4. The treatment of the image is the spec's own decision D23, log 24
(70_reset_and_hazards.md section 1). -/
def Obligations.BootLoadsFontAndImage : Prop :=
  ∀ font rom : List Byte, font.length = 80 →
    (rom.length < 2 → State.bootWith font rom = none) ∧
    (2 ≤ rom.length → ∃ t, State.bootWith font rom = some t ∧ { t with mem := State.reset.mem } = State.reset ∧
      Memory.wf t.mem ∧ ∀ a, a ≤ 0xFFF → Memory.read t.mem a =
        (if a < 80 then font.getD a 0
         else if 0x200 ≤ a ∧ a < 0x200 + min rom.length 3584 then rom.getD (a - 0x200) 0 else 0)) ∧
    State.boot rom = State.bootWith Config.font rom

/-- The state after reset, with no image loaded, holds the values of the spec's reset table; those it marks decided
(D13, D15) are its own choice, log 3, and the font bytes are its default D14, log 4; that no image is loaded is the
model's choice, log 5 (10_state.md section 11). -/
def Obligations.ResetHoldsTheTabulatedValues : Prop :=
  State.reset.pc = 0x200 ∧ State.reset.sp = 0 ∧ State.reset.dt = 0 ∧ State.reset.st = 0 ∧
  (∀ r, State.reset.getV r = 0) ∧ State.reset.i = 0 ∧ (∀ k : Fin 16, State.reset.stack[k] = 0) ∧
  (∀ (x : Fin 64) (y : Fin 32), cellAt State.reset.fb x y = false) ∧ State.reset.dirty = false ∧
  (∀ k : Key, State.reset.key[k] = false ∧ State.reset.expiry[k] = 0) ∧ State.reset.opcode = 0 ∧
  State.reset.running = true ∧ State.reset.halted = false ∧ State.reset.fault = none ∧
  (∀ a, a < 80 → Memory.read State.reset.mem a = Config.font.getD a 0) ∧
  (∀ a, 80 ≤ a → Memory.read State.reset.mem a = 0)

/-! ### The whole machine -/

/-- From every state with the invariant, a step that answers a next state gives one with it: the memory's canonical
form (the model's, log 5), sp at most 15, a key pressed exactly when it has a deadline, time positive and no deadline
more than 100 ms ahead (log 15), a failed cycle clean (log 14). -/
def Obligations.EveryStepKeepsTheInvariant : Prop :=
  ∀ s t : State, s.Inv → step s = .next t → t.Inv

/-- The state after reset has the invariant that every step keeps; it rests on the reset values the spec chose (D13,
log 3) and on the time the model chose (log 15). -/
def Obligations.ResetHasTheInvariant : Prop := State.reset.Inv

/-- Over every step of every agent that answers a next state, halted once set stays set, running once clear stays
clear, and fault is not written by a step (a faulting step answers the fault instead, log 8). That halting is sticky
is the spec's own decision D15, log 7 (60_exceptions.md section 5). -/
def Obligations.StopFlagsAreSticky : Prop :=
  ∀ s t : State, step s = .next t →
    t.fault = s.fault ∧ (s.halted = true → t.halted = true) ∧ (s.running = false → t.running = false)

/-- When exec answers a next state, every byte of memory outside those FX33 and FX55 store from I on reads as before,
and the framebuffer and its dirty flag are unchanged for every instruction but 00E0 and DXYN (10_state.md section 6,
43_display.md section 1). -/
def Obligations.OnlyStoresAndDrawsWrite : Prop :=
  ∀ (i : Instr) (s t : State), exec i s = .next t →
    (∀ a, a < s.i.toNat ∨ s.i.toNat + storedBytes i ≤ a → Memory.read t.mem a = Memory.read s.mem a) ∧
    (writesFramebuffer i = false → t.fb = s.fb ∧ t.dirty = s.dirty)

/-- When exec answers a next state, it leaves the pressed flags, the deadlines and running (10_state.md section 10);
opcode, which the fetch writes (30_encoding.md section 1); halted and fault, which the decode failure and the
recording of a fault write (60_exceptions.md sections 1 and 2; the spec's own decision D15, log 7 and log 8). The
phases of the two units, the time, the key queue, the order of the steps to come and the record of what left the
block, which it leaves too, are the model's own fields, log 1 and log 15 to log 18. -/
def Obligations.InstructionsLeaveTheOtherAgents : Prop :=
  ∀ (i : Instr) (s t : State), exec i s = .next t →
    { t with v := s.v, i := s.i, pc := s.pc, stack := s.stack, sp := s.sp, dt := s.dt, st := s.st, mem := s.mem,
             fb := s.fb, dirty := s.dirty, draws := s.draws } = s

/-- The steps of the other agents complete in every state: the timer unit touches only its counters, its phase and
what leaves the block, the keyboard unit only its own state and the time, the host only dirty, running and what leaves
the block (10_state.md section 10; the agents' state beyond the table is the model's, log 15 to log 18). -/
def Obligations.AgentsLeaveTheInterpreter : Prop :=
  ∀ s : State,
    (∃ t, takeEvent .timer s = .next t ∧
      { t with dt := s.dt, st := s.st, tickPhase := s.tickPhase, outputs := s.outputs } = s) ∧
    (∀ elapsed, ∃ t, takeEvent (.keyboard elapsed) s = .next t ∧ t.now = s.now + elapsed ∧
      { t with key := s.key, expiry := s.expiry, keyboard := s.keyboard, keyQueue := s.keyQueue, now := s.now } = s) ∧
    (∀ k, takeEvent (.keyDown k) s = .next { s with keyQueue := s.keyQueue ++ [k] }) ∧
    (∃ t, takeEvent .handshake s = .next t ∧ { t with dirty := s.dirty, outputs := s.outputs } = s) ∧
    (∃ t, takeEvent .snapshot s = .next t ∧ { t with outputs := s.outputs } = s) ∧
    takeEvent .exitRequest s = .next { s with running := false }

/-- When exec answers a next state, a general register that is not a destination of the instruction is unchanged,
unless it is VF and the instruction is one of the seven that write VF as a flag (10_state.md sections 1 and 2). -/
def Obligations.OnlyDestinationsAndFlagsWritten : Prop :=
  ∀ (i : Instr) (s t : State) (r : Reg), exec i s = .next t → isDestination r i = false →
    (r ≠ VF ∨ writesFlag i = false) → t.getV r = s.getV r

/-- An instruction that is no jump, call or return advances pc by 2, or by 4 if it is a skip, or is FX0A with no key
pressed and changes nothing (40_flow.md section 1; pc is 16 bits wide and wraps, the spec's own decision D29, log 22).
-/
def Obligations.PcAdvancesByTheLaw : Prop :=
  ∀ (i : Instr) (s t : State), exec i s = .next t → setsPc i = false →
    t.pc = s.pc + 2 ∨ (isSkip i = true ∧ t.pc = s.pc + 4) ∨
    ((∃ x, i = .ldVxKey x) ∧ (∀ k : Key, s.key[k] = false) ∧ t = s)

/-- With sp in its legal range, exec answers a next state when the stack, the memory range and the key index are in
bounds, and a fault when they are not (60_exceptions.md section 2; the bounds are the spec's own decisions D7, D8 and
D9, log 8). -/
def Obligations.InstructionsSucceedInTheirDomain : Prop :=
  ∀ (i : Instr) (s : State), s.sp.toNat ≤ 15 →
    (inDomain s i → ∃ t, exec i s = .next t) ∧ (¬ inDomain s i → ∃ r, exec i s = .fault r)
end

