-- ==== Sys2Proof/Laws/State.lean ====
section
/-! SUPPORT. What each named update of the state does to each field: one lemma per field per update. -/

namespace Sys2Proof.Machine

/-! ### setV -/

@[simp] theorem State.setV_v (s : State) (r : Reg) (b : Byte) : (s.setV r b).v = s.v.set r b := rfl
@[simp] theorem State.setV_i (s : State) (r : Reg) (b : Byte) : (s.setV r b).i = s.i := rfl
@[simp] theorem State.setV_pc (s : State) (r : Reg) (b : Byte) : (s.setV r b).pc = s.pc := rfl
@[simp] theorem State.setV_stack (s : State) (r : Reg) (b : Byte) : (s.setV r b).stack = s.stack := rfl
@[simp] theorem State.setV_sp (s : State) (r : Reg) (b : Byte) : (s.setV r b).sp = s.sp := rfl
@[simp] theorem State.setV_dt (s : State) (r : Reg) (b : Byte) : (s.setV r b).dt = s.dt := rfl
@[simp] theorem State.setV_st (s : State) (r : Reg) (b : Byte) : (s.setV r b).st = s.st := rfl
@[simp] theorem State.setV_mem (s : State) (r : Reg) (b : Byte) : (s.setV r b).mem = s.mem := rfl
@[simp] theorem State.setV_fb (s : State) (r : Reg) (b : Byte) : (s.setV r b).fb = s.fb := rfl
@[simp] theorem State.setV_dirty (s : State) (r : Reg) (b : Byte) : (s.setV r b).dirty = s.dirty := rfl
@[simp] theorem State.setV_opcode (s : State) (r : Reg) (b : Byte) : (s.setV r b).opcode = s.opcode := rfl
@[simp] theorem State.setV_key (s : State) (r : Reg) (b : Byte) : (s.setV r b).key = s.key := rfl
@[simp] theorem State.setV_expiry (s : State) (r : Reg) (b : Byte) : (s.setV r b).expiry = s.expiry := rfl
@[simp] theorem State.setV_running (s : State) (r : Reg) (b : Byte) : (s.setV r b).running = s.running := rfl
@[simp] theorem State.setV_halted (s : State) (r : Reg) (b : Byte) : (s.setV r b).halted = s.halted := rfl
@[simp] theorem State.setV_fault (s : State) (r : Reg) (b : Byte) : (s.setV r b).fault = s.fault := rfl
@[simp] theorem State.setV_tickPhase (s : State) (r : Reg) (b : Byte) : (s.setV r b).tickPhase = s.tickPhase := rfl
@[simp] theorem State.setV_keyboard (s : State) (r : Reg) (b : Byte) : (s.setV r b).keyboard = s.keyboard := rfl
@[simp] theorem State.setV_keyQueue (s : State) (r : Reg) (b : Byte) : (s.setV r b).keyQueue = s.keyQueue := rfl
@[simp] theorem State.setV_now (s : State) (r : Reg) (b : Byte) : (s.setV r b).now = s.now := rfl
@[simp] theorem State.setV_draws (s : State) (r : Reg) (b : Byte) : (s.setV r b).draws = s.draws := rfl
@[simp] theorem State.setV_schedule (s : State) (r : Reg) (b : Byte) : (s.setV r b).schedule = s.schedule := rfl
@[simp] theorem State.setV_source (s : State) (r : Reg) (b : Byte) : (s.setV r b).source = s.source := rfl
@[simp] theorem State.setV_outputs (s : State) (r : Reg) (b : Byte) : (s.setV r b).outputs = s.outputs := rfl

/-! ### setPc -/

@[simp] theorem State.setPc_v (s : State) (w : Word) : (s.setPc w).v = s.v := rfl
@[simp] theorem State.setPc_i (s : State) (w : Word) : (s.setPc w).i = s.i := rfl
@[simp] theorem State.setPc_pc (s : State) (w : Word) : (s.setPc w).pc = w := rfl
@[simp] theorem State.setPc_stack (s : State) (w : Word) : (s.setPc w).stack = s.stack := rfl
@[simp] theorem State.setPc_sp (s : State) (w : Word) : (s.setPc w).sp = s.sp := rfl
@[simp] theorem State.setPc_dt (s : State) (w : Word) : (s.setPc w).dt = s.dt := rfl
@[simp] theorem State.setPc_st (s : State) (w : Word) : (s.setPc w).st = s.st := rfl
@[simp] theorem State.setPc_mem (s : State) (w : Word) : (s.setPc w).mem = s.mem := rfl
@[simp] theorem State.setPc_fb (s : State) (w : Word) : (s.setPc w).fb = s.fb := rfl
@[simp] theorem State.setPc_dirty (s : State) (w : Word) : (s.setPc w).dirty = s.dirty := rfl
@[simp] theorem State.setPc_opcode (s : State) (w : Word) : (s.setPc w).opcode = s.opcode := rfl
@[simp] theorem State.setPc_key (s : State) (w : Word) : (s.setPc w).key = s.key := rfl
@[simp] theorem State.setPc_expiry (s : State) (w : Word) : (s.setPc w).expiry = s.expiry := rfl
@[simp] theorem State.setPc_running (s : State) (w : Word) : (s.setPc w).running = s.running := rfl
@[simp] theorem State.setPc_halted (s : State) (w : Word) : (s.setPc w).halted = s.halted := rfl
@[simp] theorem State.setPc_fault (s : State) (w : Word) : (s.setPc w).fault = s.fault := rfl
@[simp] theorem State.setPc_tickPhase (s : State) (w : Word) : (s.setPc w).tickPhase = s.tickPhase := rfl
@[simp] theorem State.setPc_keyboard (s : State) (w : Word) : (s.setPc w).keyboard = s.keyboard := rfl
@[simp] theorem State.setPc_keyQueue (s : State) (w : Word) : (s.setPc w).keyQueue = s.keyQueue := rfl
@[simp] theorem State.setPc_now (s : State) (w : Word) : (s.setPc w).now = s.now := rfl
@[simp] theorem State.setPc_draws (s : State) (w : Word) : (s.setPc w).draws = s.draws := rfl
@[simp] theorem State.setPc_schedule (s : State) (w : Word) : (s.setPc w).schedule = s.schedule := rfl
@[simp] theorem State.setPc_source (s : State) (w : Word) : (s.setPc w).source = s.source := rfl
@[simp] theorem State.setPc_outputs (s : State) (w : Word) : (s.setPc w).outputs = s.outputs := rfl

/-! ### advance -/

@[simp] theorem State.advance_v (s : State) (n : Nat) : (s.advance n).v = s.v := rfl
@[simp] theorem State.advance_i (s : State) (n : Nat) : (s.advance n).i = s.i := rfl
@[simp] theorem State.advance_pc (s : State) (n : Nat) : (s.advance n).pc = s.pc + BitVec.ofNat 16 n := rfl
@[simp] theorem State.advance_stack (s : State) (n : Nat) : (s.advance n).stack = s.stack := rfl
@[simp] theorem State.advance_sp (s : State) (n : Nat) : (s.advance n).sp = s.sp := rfl
@[simp] theorem State.advance_dt (s : State) (n : Nat) : (s.advance n).dt = s.dt := rfl
@[simp] theorem State.advance_st (s : State) (n : Nat) : (s.advance n).st = s.st := rfl
@[simp] theorem State.advance_mem (s : State) (n : Nat) : (s.advance n).mem = s.mem := rfl
@[simp] theorem State.advance_fb (s : State) (n : Nat) : (s.advance n).fb = s.fb := rfl
@[simp] theorem State.advance_dirty (s : State) (n : Nat) : (s.advance n).dirty = s.dirty := rfl
@[simp] theorem State.advance_opcode (s : State) (n : Nat) : (s.advance n).opcode = s.opcode := rfl
@[simp] theorem State.advance_key (s : State) (n : Nat) : (s.advance n).key = s.key := rfl
@[simp] theorem State.advance_expiry (s : State) (n : Nat) : (s.advance n).expiry = s.expiry := rfl
@[simp] theorem State.advance_running (s : State) (n : Nat) : (s.advance n).running = s.running := rfl
@[simp] theorem State.advance_halted (s : State) (n : Nat) : (s.advance n).halted = s.halted := rfl
@[simp] theorem State.advance_fault (s : State) (n : Nat) : (s.advance n).fault = s.fault := rfl
@[simp] theorem State.advance_tickPhase (s : State) (n : Nat) : (s.advance n).tickPhase = s.tickPhase := rfl
@[simp] theorem State.advance_keyboard (s : State) (n : Nat) : (s.advance n).keyboard = s.keyboard := rfl
@[simp] theorem State.advance_keyQueue (s : State) (n : Nat) : (s.advance n).keyQueue = s.keyQueue := rfl
@[simp] theorem State.advance_now (s : State) (n : Nat) : (s.advance n).now = s.now := rfl
@[simp] theorem State.advance_draws (s : State) (n : Nat) : (s.advance n).draws = s.draws := rfl
@[simp] theorem State.advance_schedule (s : State) (n : Nat) : (s.advance n).schedule = s.schedule := rfl
@[simp] theorem State.advance_source (s : State) (n : Nat) : (s.advance n).source = s.source := rfl
@[simp] theorem State.advance_outputs (s : State) (n : Nat) : (s.advance n).outputs = s.outputs := rfl

/-! ### skipIf -/

@[simp] theorem State.skipIf_v (s : State) (c : Bool) : (s.skipIf c).v = s.v := rfl
@[simp] theorem State.skipIf_i (s : State) (c : Bool) : (s.skipIf c).i = s.i := rfl
@[simp] theorem State.skipIf_pc (s : State) (c : Bool) : (s.skipIf c).pc = s.pc + BitVec.ofNat 16 (if c then 4 else 2) := rfl
@[simp] theorem State.skipIf_stack (s : State) (c : Bool) : (s.skipIf c).stack = s.stack := rfl
@[simp] theorem State.skipIf_sp (s : State) (c : Bool) : (s.skipIf c).sp = s.sp := rfl
@[simp] theorem State.skipIf_dt (s : State) (c : Bool) : (s.skipIf c).dt = s.dt := rfl
@[simp] theorem State.skipIf_st (s : State) (c : Bool) : (s.skipIf c).st = s.st := rfl
@[simp] theorem State.skipIf_mem (s : State) (c : Bool) : (s.skipIf c).mem = s.mem := rfl
@[simp] theorem State.skipIf_fb (s : State) (c : Bool) : (s.skipIf c).fb = s.fb := rfl
@[simp] theorem State.skipIf_dirty (s : State) (c : Bool) : (s.skipIf c).dirty = s.dirty := rfl
@[simp] theorem State.skipIf_opcode (s : State) (c : Bool) : (s.skipIf c).opcode = s.opcode := rfl
@[simp] theorem State.skipIf_key (s : State) (c : Bool) : (s.skipIf c).key = s.key := rfl
@[simp] theorem State.skipIf_expiry (s : State) (c : Bool) : (s.skipIf c).expiry = s.expiry := rfl
@[simp] theorem State.skipIf_running (s : State) (c : Bool) : (s.skipIf c).running = s.running := rfl
@[simp] theorem State.skipIf_halted (s : State) (c : Bool) : (s.skipIf c).halted = s.halted := rfl
@[simp] theorem State.skipIf_fault (s : State) (c : Bool) : (s.skipIf c).fault = s.fault := rfl
@[simp] theorem State.skipIf_tickPhase (s : State) (c : Bool) : (s.skipIf c).tickPhase = s.tickPhase := rfl
@[simp] theorem State.skipIf_keyboard (s : State) (c : Bool) : (s.skipIf c).keyboard = s.keyboard := rfl
@[simp] theorem State.skipIf_keyQueue (s : State) (c : Bool) : (s.skipIf c).keyQueue = s.keyQueue := rfl
@[simp] theorem State.skipIf_now (s : State) (c : Bool) : (s.skipIf c).now = s.now := rfl
@[simp] theorem State.skipIf_draws (s : State) (c : Bool) : (s.skipIf c).draws = s.draws := rfl
@[simp] theorem State.skipIf_schedule (s : State) (c : Bool) : (s.skipIf c).schedule = s.schedule := rfl
@[simp] theorem State.skipIf_source (s : State) (c : Bool) : (s.skipIf c).source = s.source := rfl
@[simp] theorem State.skipIf_outputs (s : State) (c : Bool) : (s.skipIf c).outputs = s.outputs := rfl

/-! ### setI -/

@[simp] theorem State.setI_v (s : State) (w : Word) : (s.setI w).v = s.v := rfl
@[simp] theorem State.setI_i (s : State) (w : Word) : (s.setI w).i = w := rfl
@[simp] theorem State.setI_pc (s : State) (w : Word) : (s.setI w).pc = s.pc := rfl
@[simp] theorem State.setI_stack (s : State) (w : Word) : (s.setI w).stack = s.stack := rfl
@[simp] theorem State.setI_sp (s : State) (w : Word) : (s.setI w).sp = s.sp := rfl
@[simp] theorem State.setI_dt (s : State) (w : Word) : (s.setI w).dt = s.dt := rfl
@[simp] theorem State.setI_st (s : State) (w : Word) : (s.setI w).st = s.st := rfl
@[simp] theorem State.setI_mem (s : State) (w : Word) : (s.setI w).mem = s.mem := rfl
@[simp] theorem State.setI_fb (s : State) (w : Word) : (s.setI w).fb = s.fb := rfl
@[simp] theorem State.setI_dirty (s : State) (w : Word) : (s.setI w).dirty = s.dirty := rfl
@[simp] theorem State.setI_opcode (s : State) (w : Word) : (s.setI w).opcode = s.opcode := rfl
@[simp] theorem State.setI_key (s : State) (w : Word) : (s.setI w).key = s.key := rfl
@[simp] theorem State.setI_expiry (s : State) (w : Word) : (s.setI w).expiry = s.expiry := rfl
@[simp] theorem State.setI_running (s : State) (w : Word) : (s.setI w).running = s.running := rfl
@[simp] theorem State.setI_halted (s : State) (w : Word) : (s.setI w).halted = s.halted := rfl
@[simp] theorem State.setI_fault (s : State) (w : Word) : (s.setI w).fault = s.fault := rfl
@[simp] theorem State.setI_tickPhase (s : State) (w : Word) : (s.setI w).tickPhase = s.tickPhase := rfl
@[simp] theorem State.setI_keyboard (s : State) (w : Word) : (s.setI w).keyboard = s.keyboard := rfl
@[simp] theorem State.setI_keyQueue (s : State) (w : Word) : (s.setI w).keyQueue = s.keyQueue := rfl
@[simp] theorem State.setI_now (s : State) (w : Word) : (s.setI w).now = s.now := rfl
@[simp] theorem State.setI_draws (s : State) (w : Word) : (s.setI w).draws = s.draws := rfl
@[simp] theorem State.setI_schedule (s : State) (w : Word) : (s.setI w).schedule = s.schedule := rfl
@[simp] theorem State.setI_source (s : State) (w : Word) : (s.setI w).source = s.source := rfl
@[simp] theorem State.setI_outputs (s : State) (w : Word) : (s.setI w).outputs = s.outputs := rfl

/-! ### setMem -/

@[simp] theorem State.setMem_v (s : State) (m : Memory) : (s.setMem m).v = s.v := rfl
@[simp] theorem State.setMem_i (s : State) (m : Memory) : (s.setMem m).i = s.i := rfl
@[simp] theorem State.setMem_pc (s : State) (m : Memory) : (s.setMem m).pc = s.pc := rfl
@[simp] theorem State.setMem_stack (s : State) (m : Memory) : (s.setMem m).stack = s.stack := rfl
@[simp] theorem State.setMem_sp (s : State) (m : Memory) : (s.setMem m).sp = s.sp := rfl
@[simp] theorem State.setMem_dt (s : State) (m : Memory) : (s.setMem m).dt = s.dt := rfl
@[simp] theorem State.setMem_st (s : State) (m : Memory) : (s.setMem m).st = s.st := rfl
@[simp] theorem State.setMem_mem (s : State) (m : Memory) : (s.setMem m).mem = m := rfl
@[simp] theorem State.setMem_fb (s : State) (m : Memory) : (s.setMem m).fb = s.fb := rfl
@[simp] theorem State.setMem_dirty (s : State) (m : Memory) : (s.setMem m).dirty = s.dirty := rfl
@[simp] theorem State.setMem_opcode (s : State) (m : Memory) : (s.setMem m).opcode = s.opcode := rfl
@[simp] theorem State.setMem_key (s : State) (m : Memory) : (s.setMem m).key = s.key := rfl
@[simp] theorem State.setMem_expiry (s : State) (m : Memory) : (s.setMem m).expiry = s.expiry := rfl
@[simp] theorem State.setMem_running (s : State) (m : Memory) : (s.setMem m).running = s.running := rfl
@[simp] theorem State.setMem_halted (s : State) (m : Memory) : (s.setMem m).halted = s.halted := rfl
@[simp] theorem State.setMem_fault (s : State) (m : Memory) : (s.setMem m).fault = s.fault := rfl
@[simp] theorem State.setMem_tickPhase (s : State) (m : Memory) : (s.setMem m).tickPhase = s.tickPhase := rfl
@[simp] theorem State.setMem_keyboard (s : State) (m : Memory) : (s.setMem m).keyboard = s.keyboard := rfl
@[simp] theorem State.setMem_keyQueue (s : State) (m : Memory) : (s.setMem m).keyQueue = s.keyQueue := rfl
@[simp] theorem State.setMem_now (s : State) (m : Memory) : (s.setMem m).now = s.now := rfl
@[simp] theorem State.setMem_draws (s : State) (m : Memory) : (s.setMem m).draws = s.draws := rfl
@[simp] theorem State.setMem_schedule (s : State) (m : Memory) : (s.setMem m).schedule = s.schedule := rfl
@[simp] theorem State.setMem_source (s : State) (m : Memory) : (s.setMem m).source = s.source := rfl
@[simp] theorem State.setMem_outputs (s : State) (m : Memory) : (s.setMem m).outputs = s.outputs := rfl

/-! ### latch -/

@[simp] theorem State.latch_v (s : State) (op : Word) : (s.latch op).v = s.v := rfl
@[simp] theorem State.latch_i (s : State) (op : Word) : (s.latch op).i = s.i := rfl
@[simp] theorem State.latch_pc (s : State) (op : Word) : (s.latch op).pc = s.pc := rfl
@[simp] theorem State.latch_stack (s : State) (op : Word) : (s.latch op).stack = s.stack := rfl
@[simp] theorem State.latch_sp (s : State) (op : Word) : (s.latch op).sp = s.sp := rfl
@[simp] theorem State.latch_dt (s : State) (op : Word) : (s.latch op).dt = s.dt := rfl
@[simp] theorem State.latch_st (s : State) (op : Word) : (s.latch op).st = s.st := rfl
@[simp] theorem State.latch_mem (s : State) (op : Word) : (s.latch op).mem = s.mem := rfl
@[simp] theorem State.latch_fb (s : State) (op : Word) : (s.latch op).fb = s.fb := rfl
@[simp] theorem State.latch_dirty (s : State) (op : Word) : (s.latch op).dirty = s.dirty := rfl
@[simp] theorem State.latch_opcode (s : State) (op : Word) : (s.latch op).opcode = op := rfl
@[simp] theorem State.latch_key (s : State) (op : Word) : (s.latch op).key = s.key := rfl
@[simp] theorem State.latch_expiry (s : State) (op : Word) : (s.latch op).expiry = s.expiry := rfl
@[simp] theorem State.latch_running (s : State) (op : Word) : (s.latch op).running = s.running := rfl
@[simp] theorem State.latch_halted (s : State) (op : Word) : (s.latch op).halted = s.halted := rfl
@[simp] theorem State.latch_fault (s : State) (op : Word) : (s.latch op).fault = s.fault := rfl
@[simp] theorem State.latch_tickPhase (s : State) (op : Word) : (s.latch op).tickPhase = s.tickPhase := rfl
@[simp] theorem State.latch_keyboard (s : State) (op : Word) : (s.latch op).keyboard = s.keyboard := rfl
@[simp] theorem State.latch_keyQueue (s : State) (op : Word) : (s.latch op).keyQueue = s.keyQueue := rfl
@[simp] theorem State.latch_now (s : State) (op : Word) : (s.latch op).now = s.now := rfl
@[simp] theorem State.latch_draws (s : State) (op : Word) : (s.latch op).draws = s.draws := rfl
@[simp] theorem State.latch_schedule (s : State) (op : Word) : (s.latch op).schedule = s.schedule := rfl
@[simp] theorem State.latch_source (s : State) (op : Word) : (s.latch op).source = s.source := rfl
@[simp] theorem State.latch_outputs (s : State) (op : Word) : (s.latch op).outputs = s.outputs := rfl

/-! ### emit -/

@[simp] theorem State.emit_v (s : State) (o : Output) : (s.emit o).v = s.v := rfl
@[simp] theorem State.emit_i (s : State) (o : Output) : (s.emit o).i = s.i := rfl
@[simp] theorem State.emit_pc (s : State) (o : Output) : (s.emit o).pc = s.pc := rfl
@[simp] theorem State.emit_stack (s : State) (o : Output) : (s.emit o).stack = s.stack := rfl
@[simp] theorem State.emit_sp (s : State) (o : Output) : (s.emit o).sp = s.sp := rfl
@[simp] theorem State.emit_dt (s : State) (o : Output) : (s.emit o).dt = s.dt := rfl
@[simp] theorem State.emit_st (s : State) (o : Output) : (s.emit o).st = s.st := rfl
@[simp] theorem State.emit_mem (s : State) (o : Output) : (s.emit o).mem = s.mem := rfl
@[simp] theorem State.emit_fb (s : State) (o : Output) : (s.emit o).fb = s.fb := rfl
@[simp] theorem State.emit_dirty (s : State) (o : Output) : (s.emit o).dirty = s.dirty := rfl
@[simp] theorem State.emit_opcode (s : State) (o : Output) : (s.emit o).opcode = s.opcode := rfl
@[simp] theorem State.emit_key (s : State) (o : Output) : (s.emit o).key = s.key := rfl
@[simp] theorem State.emit_expiry (s : State) (o : Output) : (s.emit o).expiry = s.expiry := rfl
@[simp] theorem State.emit_running (s : State) (o : Output) : (s.emit o).running = s.running := rfl
@[simp] theorem State.emit_halted (s : State) (o : Output) : (s.emit o).halted = s.halted := rfl
@[simp] theorem State.emit_fault (s : State) (o : Output) : (s.emit o).fault = s.fault := rfl
@[simp] theorem State.emit_tickPhase (s : State) (o : Output) : (s.emit o).tickPhase = s.tickPhase := rfl
@[simp] theorem State.emit_keyboard (s : State) (o : Output) : (s.emit o).keyboard = s.keyboard := rfl
@[simp] theorem State.emit_keyQueue (s : State) (o : Output) : (s.emit o).keyQueue = s.keyQueue := rfl
@[simp] theorem State.emit_now (s : State) (o : Output) : (s.emit o).now = s.now := rfl
@[simp] theorem State.emit_draws (s : State) (o : Output) : (s.emit o).draws = s.draws := rfl
@[simp] theorem State.emit_schedule (s : State) (o : Output) : (s.emit o).schedule = s.schedule := rfl
@[simp] theorem State.emit_source (s : State) (o : Output) : (s.emit o).source = s.source := rfl
@[simp] theorem State.emit_outputs (s : State) (o : Output) : (s.emit o).outputs = o :: s.outputs := rfl

/-! ### useDraw -/

@[simp] theorem State.useDraw_v (s : State) : (s.useDraw).v = s.v := rfl
@[simp] theorem State.useDraw_i (s : State) : (s.useDraw).i = s.i := rfl
@[simp] theorem State.useDraw_pc (s : State) : (s.useDraw).pc = s.pc := rfl
@[simp] theorem State.useDraw_stack (s : State) : (s.useDraw).stack = s.stack := rfl
@[simp] theorem State.useDraw_sp (s : State) : (s.useDraw).sp = s.sp := rfl
@[simp] theorem State.useDraw_dt (s : State) : (s.useDraw).dt = s.dt := rfl
@[simp] theorem State.useDraw_st (s : State) : (s.useDraw).st = s.st := rfl
@[simp] theorem State.useDraw_mem (s : State) : (s.useDraw).mem = s.mem := rfl
@[simp] theorem State.useDraw_fb (s : State) : (s.useDraw).fb = s.fb := rfl
@[simp] theorem State.useDraw_dirty (s : State) : (s.useDraw).dirty = s.dirty := rfl
@[simp] theorem State.useDraw_opcode (s : State) : (s.useDraw).opcode = s.opcode := rfl
@[simp] theorem State.useDraw_key (s : State) : (s.useDraw).key = s.key := rfl
@[simp] theorem State.useDraw_expiry (s : State) : (s.useDraw).expiry = s.expiry := rfl
@[simp] theorem State.useDraw_running (s : State) : (s.useDraw).running = s.running := rfl
@[simp] theorem State.useDraw_halted (s : State) : (s.useDraw).halted = s.halted := rfl
@[simp] theorem State.useDraw_fault (s : State) : (s.useDraw).fault = s.fault := rfl
@[simp] theorem State.useDraw_tickPhase (s : State) : (s.useDraw).tickPhase = s.tickPhase := rfl
@[simp] theorem State.useDraw_keyboard (s : State) : (s.useDraw).keyboard = s.keyboard := rfl
@[simp] theorem State.useDraw_keyQueue (s : State) : (s.useDraw).keyQueue = s.keyQueue := rfl
@[simp] theorem State.useDraw_now (s : State) : (s.useDraw).now = s.now := rfl
@[simp] theorem State.useDraw_draws (s : State) : (s.useDraw).draws = s.draws + 1 := rfl
@[simp] theorem State.useDraw_schedule (s : State) : (s.useDraw).schedule = s.schedule := rfl
@[simp] theorem State.useDraw_source (s : State) : (s.useDraw).source = s.source := rfl
@[simp] theorem State.useDraw_outputs (s : State) : (s.useDraw).outputs = s.outputs := rfl

/-! ### recordFault -/

@[simp] theorem State.recordFault_v (s : State) (r : Fault) : (s.recordFault r).v = s.v := rfl
@[simp] theorem State.recordFault_i (s : State) (r : Fault) : (s.recordFault r).i = s.i := rfl
@[simp] theorem State.recordFault_pc (s : State) (r : Fault) : (s.recordFault r).pc = s.pc := rfl
@[simp] theorem State.recordFault_stack (s : State) (r : Fault) : (s.recordFault r).stack = s.stack := rfl
@[simp] theorem State.recordFault_sp (s : State) (r : Fault) : (s.recordFault r).sp = s.sp := rfl
@[simp] theorem State.recordFault_dt (s : State) (r : Fault) : (s.recordFault r).dt = s.dt := rfl
@[simp] theorem State.recordFault_st (s : State) (r : Fault) : (s.recordFault r).st = s.st := rfl
@[simp] theorem State.recordFault_mem (s : State) (r : Fault) : (s.recordFault r).mem = s.mem := rfl
@[simp] theorem State.recordFault_fb (s : State) (r : Fault) : (s.recordFault r).fb = s.fb := rfl
@[simp] theorem State.recordFault_dirty (s : State) (r : Fault) : (s.recordFault r).dirty = s.dirty := rfl
@[simp] theorem State.recordFault_opcode (s : State) (r : Fault) : (s.recordFault r).opcode = s.opcode := rfl
@[simp] theorem State.recordFault_key (s : State) (r : Fault) : (s.recordFault r).key = s.key := rfl
@[simp] theorem State.recordFault_expiry (s : State) (r : Fault) : (s.recordFault r).expiry = s.expiry := rfl
@[simp] theorem State.recordFault_running (s : State) (r : Fault) : (s.recordFault r).running = s.running := rfl
@[simp] theorem State.recordFault_halted (s : State) (r : Fault) : (s.recordFault r).halted = s.halted := rfl
@[simp] theorem State.recordFault_fault (s : State) (r : Fault) : (s.recordFault r).fault = some r := rfl
@[simp] theorem State.recordFault_tickPhase (s : State) (r : Fault) : (s.recordFault r).tickPhase = s.tickPhase := rfl
@[simp] theorem State.recordFault_keyboard (s : State) (r : Fault) : (s.recordFault r).keyboard = s.keyboard := rfl
@[simp] theorem State.recordFault_keyQueue (s : State) (r : Fault) : (s.recordFault r).keyQueue = s.keyQueue := rfl
@[simp] theorem State.recordFault_now (s : State) (r : Fault) : (s.recordFault r).now = s.now := rfl
@[simp] theorem State.recordFault_draws (s : State) (r : Fault) : (s.recordFault r).draws = s.draws := rfl
@[simp] theorem State.recordFault_schedule (s : State) (r : Fault) : (s.recordFault r).schedule = s.schedule := rfl
@[simp] theorem State.recordFault_source (s : State) (r : Fault) : (s.recordFault r).source = s.source := rfl
@[simp] theorem State.recordFault_outputs (s : State) (r : Fault) : (s.recordFault r).outputs = s.outputs := rfl

/-! ### stopRunning -/

@[simp] theorem State.stopRunning_v (s : State) : (s.stopRunning).v = s.v := rfl
@[simp] theorem State.stopRunning_i (s : State) : (s.stopRunning).i = s.i := rfl
@[simp] theorem State.stopRunning_pc (s : State) : (s.stopRunning).pc = s.pc := rfl
@[simp] theorem State.stopRunning_stack (s : State) : (s.stopRunning).stack = s.stack := rfl
@[simp] theorem State.stopRunning_sp (s : State) : (s.stopRunning).sp = s.sp := rfl
@[simp] theorem State.stopRunning_dt (s : State) : (s.stopRunning).dt = s.dt := rfl
@[simp] theorem State.stopRunning_st (s : State) : (s.stopRunning).st = s.st := rfl
@[simp] theorem State.stopRunning_mem (s : State) : (s.stopRunning).mem = s.mem := rfl
@[simp] theorem State.stopRunning_fb (s : State) : (s.stopRunning).fb = s.fb := rfl
@[simp] theorem State.stopRunning_dirty (s : State) : (s.stopRunning).dirty = s.dirty := rfl
@[simp] theorem State.stopRunning_opcode (s : State) : (s.stopRunning).opcode = s.opcode := rfl
@[simp] theorem State.stopRunning_key (s : State) : (s.stopRunning).key = s.key := rfl
@[simp] theorem State.stopRunning_expiry (s : State) : (s.stopRunning).expiry = s.expiry := rfl
@[simp] theorem State.stopRunning_running (s : State) : (s.stopRunning).running = false := rfl
@[simp] theorem State.stopRunning_halted (s : State) : (s.stopRunning).halted = s.halted := rfl
@[simp] theorem State.stopRunning_fault (s : State) : (s.stopRunning).fault = s.fault := rfl
@[simp] theorem State.stopRunning_tickPhase (s : State) : (s.stopRunning).tickPhase = s.tickPhase := rfl
@[simp] theorem State.stopRunning_keyboard (s : State) : (s.stopRunning).keyboard = s.keyboard := rfl
@[simp] theorem State.stopRunning_keyQueue (s : State) : (s.stopRunning).keyQueue = s.keyQueue := rfl
@[simp] theorem State.stopRunning_now (s : State) : (s.stopRunning).now = s.now := rfl
@[simp] theorem State.stopRunning_draws (s : State) : (s.stopRunning).draws = s.draws := rfl
@[simp] theorem State.stopRunning_schedule (s : State) : (s.stopRunning).schedule = s.schedule := rfl
@[simp] theorem State.stopRunning_source (s : State) : (s.stopRunning).source = s.source := rfl
@[simp] theorem State.stopRunning_outputs (s : State) : (s.stopRunning).outputs = s.outputs := rfl

end Sys2Proof.Machine
end

