-- ==== Sys2Proof/Laws/Ops.lean ====
section
/-! SUPPORT. The laws of the register and memory operations and of the range check. -/

namespace Sys2Proof.Machine

/-! ### Registers -/

@[simp] theorem State.getV_setV_self (s : State) (r : Reg) (b : Byte) : (s.setV r b).getV r = b := by
  simp [State.getV]

theorem State.getV_setV (s : State) (r q : Reg) (b : Byte) :
    (s.setV r b).getV q = if q = r then b else s.getV q := by
  simp only [State.getV, State.setV_v, Fin.getElem_fin, Vector.getElem_set, eq_comm, Fin.ext_iff]

@[simp] theorem State.getV_setV_ne (s : State) {r q : Reg} (b : Byte) (h : q ≠ r) :
    (s.setV r b).getV q = s.getV q := by
  rw [State.getV_setV, if_neg h]

@[simp] theorem State.getV_setPc (s : State) (w : Word) (r : Reg) : (s.setPc w).getV r = s.getV r := rfl
@[simp] theorem State.getV_advance (s : State) (n : Nat) (r : Reg) : (s.advance n).getV r = s.getV r := rfl
@[simp] theorem State.getV_skipIf (s : State) (c : Bool) (r : Reg) : (s.skipIf c).getV r = s.getV r := rfl
@[simp] theorem State.getV_setI (s : State) (w : Word) (r : Reg) : (s.setI w).getV r = s.getV r := rfl
@[simp] theorem State.getV_setMem (s : State) (m : Memory) (r : Reg) : (s.setMem m).getV r = s.getV r := rfl
@[simp] theorem State.getV_useDraw (s : State) (r : Reg) : s.useDraw.getV r = s.getV r := rfl
@[simp] theorem State.getV_latch (s : State) (op : Word) (r : Reg) : (s.latch op).getV r = s.getV r := rfl

/-- The whole register file after one write, read back register by register. -/
theorem State.setV_getV_eta (s : State) (r : Reg) : s.setV r (s.getV r) = s := by
  simp [State.setV, State.getV]

/-! ### The range check -/

theorem checkRange_of_le {base len : Nat} (k : Host.Outcome State Fault Refusal)
    (h : len = 0 ∨ base + len ≤ Config.memTop + 1) : checkRange base len k = k := if_pos h

theorem checkRange_of_gt {base len : Nat} (k : Host.Outcome State Fault Refusal) (h0 : 0 < len)
    (h : Config.memTop + 1 < base + len) :
    checkRange base len k = .fault (.memoryOutOfRange (max base (Config.memTop + 1))) :=
  if_neg (by omega)

/-- Everything the range check can answer. -/
theorem checkRange_cases (base len : Nat) (k : Host.Outcome State Fault Refusal) :
    ((len = 0 ∨ base + len ≤ Config.memTop + 1) ∧ checkRange base len k = k) ∨
    (0 < len ∧ Config.memTop + 1 < base + len ∧
      checkRange base len k = .fault (.memoryOutOfRange (max base (Config.memTop + 1)))) := by
  by_cases h : len = 0 ∨ base + len ≤ Config.memTop + 1
  · exact .inl ⟨h, checkRange_of_le k h⟩
  · exact .inr ⟨by omega, by omega, if_neg h⟩

/-- If the range check answers a next state, the range is good and the state is the continuation's. -/
theorem checkRange_next {base len : Nat} {k : Host.Outcome State Fault Refusal} {t : State}
    (h : checkRange base len k = .next t) : (len = 0 ∨ base + len ≤ Config.memTop + 1) ∧ k = .next t := by
  rcases checkRange_cases base len k with ⟨hr, he⟩ | ⟨_, _, he⟩
  · exact ⟨hr, he ▸ h⟩
  · rw [he] at h; cases h

/-! ### Memory: reads after writes -/

theorem Memory.read_erase (m : Memory) (a b : Nat) :
    Memory.read (Memory.erase m a) b = if b = a then Memory.unlisted a else Memory.read m b := by
  induction m with
  | nil => by_cases h : b = a <;> simp [Memory.erase, Memory.read, h]
  | cons c rest ih =>
    obtain ⟨d, w⟩ := c
    by_cases hd : d = a
    · rw [show Memory.erase ((d, w) :: rest) a = Memory.erase rest a by simp [Memory.erase, hd], ih]
      by_cases hb : b = a
      · simp [hb]
      · simp [Memory.read, hb, hd]
    · rw [show Memory.erase ((d, w) :: rest) a = (d, w) :: Memory.erase rest a by simp [Memory.erase, hd]]
      simp only [Memory.read, ih]
      by_cases hbd : b = d
      · simp [hbd, hd]
      · simp [hbd]

theorem Memory.read_insert (m : Memory) (a b : Nat) (v : Byte) (h : ∀ c ∈ m, c.1 ≠ a) :
    Memory.read (Memory.insert (a, v) m) b = if b = a then v else Memory.read m b := by
  induction m with
  | nil => simp [Memory.insert, Memory.read]
  | cons c rest ih =>
    obtain ⟨d, w⟩ := c
    have hd : d ≠ a := h (d, w) (by simp)
    have hr : ∀ c ∈ rest, c.1 ≠ a := fun c hc => h c (by simp [hc])
    by_cases had : a < d
    · simp [Memory.insert, had, Memory.read]
    · simp only [Memory.insert, had, if_false, Memory.read, ih hr]
      by_cases hb : b = a
      · subst hb; simp [Ne.symm hd]
      · simp [hb]

theorem Memory.not_mem_erase (m : Memory) (a : Nat) : ∀ c ∈ Memory.erase m a, c.1 ≠ a := by
  intro c hc
  simpa [Memory.erase] using (List.mem_filter.mp hc).2

/-- The law of one write: the address written reads as the value, every other as before. -/
theorem Memory.read_write (m : Memory) {a : Nat} (b : Nat) (v : Byte) (ha : a ≤ Config.memTop) :
    Memory.read (Memory.write m a v) b = if b = a then v else Memory.read m b := by
  unfold Memory.write
  rw [if_pos ha]
  split
  · rename_i hv
    rw [Memory.read_erase, hv]
  · rw [Memory.read_insert _ _ _ _ (Memory.not_mem_erase m a), Memory.read_erase]
    by_cases hb : b = a <;> simp [hb]

theorem Memory.read_write_ne (m : Memory) {a b : Nat} (v : Byte) (h : b ≠ a) :
    Memory.read (Memory.write m a v) b = Memory.read m b := by
  by_cases ha : a ≤ Config.memTop
  · rw [Memory.read_write m b v ha, if_neg h]
  · simp [Memory.write, ha]

/-- Byte writes at rising addresses leave every address outside them as it was. -/
theorem Memory.read_writeBytes_outside (m : Memory) (a b : Nat) (bs : List Byte) (h : b < a ∨ a + bs.length ≤ b) :
    Memory.read (Memory.writeBytes m a bs) b = Memory.read m b := by
  induction bs generalizing m a with
  | nil => rfl
  | cons v bs ih =>
    simp only [List.length_cons] at h
    rw [Memory.writeBytes, ih _ _ (by omega), Memory.read_write_ne _ _ (by omega)]

/-- Byte writes at rising addresses put byte `j` at address `a + j`. -/
theorem Memory.read_writeBytes_inside (m : Memory) (a j : Nat) (bs : List Byte) (hj : j < bs.length)
    (h : a + bs.length ≤ Config.memTop + 1) : Memory.read (Memory.writeBytes m a bs) (a + j) = bs[j] := by
  induction bs generalizing m a j with
  | nil => simp at hj
  | cons v bs ih =>
    simp only [List.length_cons] at h hj
    cases j with
    | zero =>
      rw [Memory.writeBytes, Memory.read_writeBytes_outside _ _ _ _ (by omega), Nat.add_zero,
        Memory.read_write _ _ _ (by omega)]
      simp
    | succ j =>
      have := ih (Memory.write m a v) (a + 1) j (by omega) (by omega)
      rw [Memory.writeBytes, show a + (j + 1) = a + 1 + j by omega, this]
      simp

theorem Memory.length_readBytes (m : Memory) (a n : Nat) : (Memory.readBytes m a n).length = n := by
  induction n generalizing a with
  | zero => rfl
  | succ n ih => simp [Memory.readBytes, ih]

theorem Memory.getElem_readBytes (m : Memory) (a n j : Nat) (h : j < (Memory.readBytes m a n).length) :
    (Memory.readBytes m a n)[j] = Memory.read m (a + j) := by
  induction n generalizing a j with
  | zero => simp [Memory.readBytes] at h
  | succ n ih =>
    cases j with
    | zero => simp [Memory.readBytes]
    | succ j =>
      simp only [Memory.readBytes, List.getElem_cons_succ]
      rw [ih]
      congr 1
      omega

/-! ### Memory: the canonical form -/

theorem Memory.wf_nil : Memory.wf [] := ⟨List.Pairwise.nil, by simp⟩

theorem Memory.wf_erase {m : Memory} (h : Memory.wf m) (a : Nat) : Memory.wf (Memory.erase m a) :=
  ⟨h.1.filter _, fun c hc => h.2 c (List.mem_filter.mp hc).1⟩

theorem Memory.mem_insert {c d : Host.Cell} {m : Memory} (h : d ∈ Memory.insert c m) : d = c ∨ d ∈ m := by
  induction m with
  | nil => simpa [Memory.insert] using h
  | cons e rest ih =>
    simp only [Memory.insert] at h
    split at h
    · simpa using h
    · simp only [List.mem_cons] at h ⊢
      rcases h with h | h
      · exact .inr (.inl h)
      · rcases ih h with h | h
        · exact .inl h
        · exact .inr (.inr h)

theorem Memory.wf_insert {m : Memory} (h : Memory.wf m) {a : Nat} {v : Byte} (ha : a ≤ Config.memTop)
    (hv : v ≠ Memory.unlisted a) (hne : ∀ c ∈ m, c.1 ≠ a) : Memory.wf (Memory.insert (a, v) m) := by
  refine ⟨?_, fun c hc => ?_⟩
  · have hs := h.1
    clear h
    induction m with
    | nil => simp [Memory.insert]
    | cons d rest ih =>
      rw [List.pairwise_cons] at hs
      simp only [Memory.insert]
      split
      · rename_i had
        refine List.pairwise_cons.mpr ⟨fun c hc => ?_, List.pairwise_cons.mpr hs⟩
        rcases List.mem_cons.mp hc with rfl | hc
        · exact had
        · exact lt_trans had (hs.1 c hc)
      · rename_i had
        have hda : d.1 < a := by
          have := hne d (by simp)
          omega
        refine List.pairwise_cons.mpr ⟨fun c hc => ?_, ih (fun c hc => hne c (by simp [hc])) hs.2⟩
        rcases Memory.mem_insert hc with rfl | hc
        · exact hda
        · exact hs.1 c hc
  · rcases Memory.mem_insert hc with rfl | hc
    · exact ⟨ha, hv⟩
    · exact h.2 c hc

/-- A byte write keeps the canonical form. -/
theorem Memory.wf_write {m : Memory} (h : Memory.wf m) (a : Nat) (v : Byte) : Memory.wf (Memory.write m a v) := by
  unfold Memory.write
  split
  · split
    · exact Memory.wf_erase h a
    · exact Memory.wf_insert (Memory.wf_erase h a) ‹_› ‹_› (Memory.not_mem_erase m a)
  · exact h

/-- Byte writes at rising addresses keep the canonical form. -/
theorem Memory.wf_writeBytes {m : Memory} (h : Memory.wf m) (a : Nat) (bs : List Byte) :
    Memory.wf (Memory.writeBytes m a bs) := by
  induction bs generalizing m a with
  | nil => exact h
  | cons b bs ih => exact ih (Memory.wf_write h a b) (a + 1)

theorem State.reset_mem_wf : Memory.wf State.reset.mem := Memory.wf_nil

/-! ### Register blocks -/

theorem State.length_regBytes (s : State) (x : Reg) : (s.regBytes x).length = blockLength x := by
  simp [State.regBytes, blockLength]

theorem State.getElem_regBytes (s : State) (x r : Reg) (h : r ≤ x) :
    (s.regBytes x)[r.val]'(by rw [State.length_regBytes]; exact Nat.lt_succ_of_le h) = s.getV r := by
  simp [State.regBytes, State.getV]

/-- The block load writes the first `n` registers from memory and no other. -/
theorem getElem_loadBlock (m : Memory) (base : Nat) (v : Vector Byte 16) (n : Nat) (r : Reg) :
    (loadBlock m base v n)[r] = if r.val < n then Memory.read m (base + r.val) else v[r] := by
  induction n with
  | zero => simp [loadBlock]
  | succ k ih =>
    simp only [loadBlock, Fin.getElem_fin, Vector.getElem_setIfInBounds] at ih ⊢
    by_cases hk : k = r.val
    · simp [hk]
    · rw [if_neg hk, ih]
      by_cases hr : r.val < k
      · rw [if_pos hr, if_pos (by omega)]
      · rw [if_neg hr, if_neg (by omega)]

/-! ### Raising and recording -/

theorem answerOf_next (t : State) : answerOf (.next t) = some (if t.halted then .fail else .ok) := rfl

@[simp] theorem recordOutcome_fault (s : State) (r : Fault) : recordOutcome s (.fault r) = s.recordFault r := rfl
@[simp] theorem recordOutcome_next (s t : State) : recordOutcome s (.next t) = t := rfl

end Sys2Proof.Machine
end

