-- ==== Sys2Proof/Laws/Display.lean ====
section
/-! SUPPORT. The laws of the framebuffer engine, cell by cell. -/

namespace Sys2Proof.Machine

@[simp] theorem cellAt_blank (x : Fin 64) (y : Fin 32) : cellAt blankFramebuffer x y = false := by
  simp [cellAt, blankFramebuffer]

theorem cellAt_toggleCell (fb : Framebuffer) (x x' : Fin 64) (y y' : Fin 32) :
    cellAt (toggleCell fb x y) x' y' = (cellAt fb x' y' ^^ decide (x' = x ∧ y' = y)) := by
  by_cases hy : y' = y
  · subst hy
    by_cases hx : x' = x
    · subst hx
      simp [cellAt, toggleCell]
    · have hx2 : ¬ x.val = x'.val := fun e => hx (Fin.ext e.symm)
      simp [cellAt, toggleCell, hx, hx2]
  · have hy2 : ¬ y.val = y'.val := fun e => hy (Fin.ext e.symm)
    simp [cellAt, toggleCell, hy, Vector.getElem_set_ne _ _ hy2]

/-- Two framebuffers with the same cells are the same. -/
theorem framebuffer_ext {f g : Framebuffer} (h : ∀ x y, cellAt f x y = cellAt g x y) : f = g := by
  ext j hj i hi
  exact h ⟨i, hi⟩ ⟨j, hj⟩

/-- Everything one pixel does: it toggles its cell when its bit is set and it lies inside the grid, and the collision grows by
a lit cell erased. -/
theorem drawPixel_cell (x y : Nat) (bit : Bool) (p : Framebuffer × Bool) (x' : Fin 64) (y' : Fin 32) :
    cellAt (drawPixel x y bit p).1 x' y' = (cellAt p.1 x' y' ^^ (bit && decide (x'.val = x ∧ y'.val = y))) := by
  unfold drawPixel
  split
  · rename_i h
    simp [cellAt_toggleCell, h.1, Fin.ext_iff]
  · rename_i h
    by_cases hb : bit = true
    · have : ¬ (x'.val = x ∧ y'.val = y) := fun e => h ⟨hb, by omega, by omega⟩
      simp [this]
    · simp [hb]

theorem drawPixel_collision (x y : Nat) (bit : Bool) (p : Framebuffer × Bool) :
    (drawPixel x y bit p).2 = true ↔
      p.2 = true ∨ ∃ (x' : Fin 64) (y' : Fin 32), bit = true ∧ x'.val = x ∧ y'.val = y ∧ cellAt p.1 x' y' = true := by
  unfold drawPixel
  split
  · rename_i h
    simp only [Bool.or_eq_true]
    constructor
    · rintro (hc | hc)
      · exact .inl hc
      · exact .inr ⟨_, _, h.1, rfl, rfl, hc⟩
    · rintro (hc | ⟨x', y', _, hx, hy, hc⟩)
      · exact .inl hc
      · right
        have ex : x' = ⟨x, h.2.1⟩ := Fin.ext hx
        have ey : y' = ⟨y, h.2.2⟩ := Fin.ext hy
        rw [← ex, ← ey]; exact hc
  · rename_i h
    constructor
    · exact .inl
    · rintro (hc | ⟨x', y', hb, hx, hy, _⟩)
      · exact hc
      · exact absurd ⟨hb, by omega, by omega⟩ h

/-- Everything one sprite row does to the cells. -/
theorem drawRow_cell (row : Byte) (x0 y : Nat) (p : Framebuffer × Bool) (x' : Fin 64) (y' : Fin 32) :
    cellAt (drawRow row x0 y p).1 x' y' =
      (cellAt p.1 x' y' ^^
        (decide (x0 ≤ x'.val ∧ x'.val < x0 + 8 ∧ y'.val = y) && row.getLsbD (7 - (x'.val - x0)))) := by
  simp only [drawRow, List.foldl, drawPixel_cell, rowBit]
  by_cases hy : y'.val = y
  · by_cases hx : x0 ≤ x'.val ∧ x'.val < x0 + 8
    · obtain ⟨c, hc⟩ : ∃ c, x'.val = x0 + c := ⟨x'.val - x0, by omega⟩
      have hc8 : c < 8 := by omega
      rw [hc]
      interval_cases c <;> simp [hy]
    · have h1 : ¬ (x0 ≤ x'.val ∧ x'.val < x0 + 8 ∧ y'.val = y) := fun h => hx ⟨h.1, h.2.1⟩
      have hne : ∀ c, c < 8 → ¬ x'.val = x0 + c := fun c hc h => hx ⟨by omega, by omega⟩
      have h0 := hne 0 (by omega)
      simp only [Nat.add_zero] at h0
      simp [h1, h0, hne]
  · simp [hy]

/-- A row's collision: the rows before it collided, or it erases a lit cell. -/
theorem drawRow_collision (row : Byte) (x0 y : Nat) (p : Framebuffer × Bool) :
    (drawRow row x0 y p).2 = true ↔
      p.2 = true ∨ ∃ (x' : Fin 64) (y' : Fin 32), (x0 ≤ x'.val ∧ x'.val < x0 + 8 ∧ y'.val = y) ∧
        row.getLsbD (7 - (x'.val - x0)) = true ∧ cellAt p.1 x' y' = true := by
  have pixels : ∀ (cs : List Nat), cs.Nodup → ∀ q : Framebuffer × Bool,
      (cs.foldl (fun q c => drawPixel (x0 + c) y (rowBit row c) q) q).2 = true ↔
        q.2 = true ∨ ∃ c ∈ cs, ∃ (x' : Fin 64) (y' : Fin 32),
          rowBit row c = true ∧ x'.val = x0 + c ∧ y'.val = y ∧ cellAt q.1 x' y' = true := by
    intro cs
    induction cs with
    | nil => simp
    | cons c cs ih =>
      intro hn q
      rw [List.nodup_cons] at hn
      rw [List.foldl_cons, ih hn.2, drawPixel_collision]
      have later : ∀ c' ∈ cs, ∀ (x' : Fin 64) (y' : Fin 32), x'.val = x0 + c' →
          cellAt (drawPixel (x0 + c) y (rowBit row c) q).1 x' y' = cellAt q.1 x' y' := by
        intro c' hc' x' y' hx
        have hne : c' ≠ c := fun e => hn.1 (e ▸ hc')
        have : ¬ (x'.val = x0 + c ∧ y'.val = y) := fun e => hne (by omega)
        simp [drawPixel_cell, this]
      constructor
      · rintro ((h | ⟨x', y', hb, hx, hy, hc⟩) | ⟨c', hc', x', y', hb, hx, hy, hc⟩)
        · exact .inl h
        · exact .inr ⟨c, by simp, x', y', hb, hx, hy, hc⟩
        · exact .inr ⟨c', by simp [hc'], x', y', hb, hx, hy, later c' hc' x' y' hx ▸ hc⟩
      · rintro (h | ⟨c', hc', x', y', hb, hx, hy, hc⟩)
        · exact .inl (.inl h)
        · rcases List.mem_cons.mp hc' with rfl | hc'
          · exact .inl (.inr ⟨x', y', hb, hx, hy, hc⟩)
          · exact .inr ⟨c', hc', x', y', hb, hx, hy, (later c' hc' x' y' hx).symm ▸ hc⟩
  have hp := pixels [0, 1, 2, 3, 4, 5, 6, 7] (by decide) p
  unfold drawRow
  rw [hp]
  constructor
  · rintro (h | ⟨c, hc, x', y', hb, hx, hy, hl⟩)
    · exact .inl h
    · have hc8 : c < 8 := by simp at hc; omega
      refine .inr ⟨x', y', ⟨by omega, by omega, hy⟩, ?_, hl⟩
      rw [show x'.val - x0 = c by omega]
      exact hb
  · rintro (h | ⟨x', y', ⟨h1, h2, hy⟩, hb, hl⟩)
    · exact .inl h
    · refine .inr ⟨x'.val - x0, ?_, x', y', hb, by omega, hy, hl⟩
      have : x'.val - x0 < 8 := by omega
      simp
      omega

/-- Everything a sprite does to the cells: each cell under a set bit of its row is toggled, once. -/
theorem drawSprite_cell (x0 y : Nat) (rows : List Byte) (p : Framebuffer × Bool) (x' : Fin 64) (y' : Fin 32) :
    cellAt (drawSprite x0 y rows p).1 x' y' =
      (cellAt p.1 x' y' ^^
        (decide (x0 ≤ x'.val ∧ x'.val < x0 + 8 ∧ y ≤ y'.val ∧ y'.val < y + rows.length) &&
          (rows.getD (y'.val - y) 0).getLsbD (7 - (x'.val - x0)))) := by
  induction rows generalizing y p with
  | nil =>
    simp [drawSprite]
  | cons row rows ih =>
    rw [drawSprite, ih, drawRow_cell]
    by_cases hx : x0 ≤ x'.val ∧ x'.val < x0 + 8
    · by_cases hy : y'.val = y
      · simp [hx, hy]
      · by_cases hr : y + 1 ≤ y'.val ∧ y'.val < y + 1 + rows.length
        · have h2 : y ≤ y'.val ∧ y'.val < y + (row :: rows).length := by simp only [List.length_cons]; omega
          rw [show y'.val - y = y'.val - (y + 1) + 1 by omega, List.getD_cons_succ]
          rw [decide_eq_true (show x0 ≤ x'.val ∧ x'.val < x0 + 8 ∧ y + 1 ≤ y'.val ∧ y'.val < y + 1 + rows.length from ⟨hx.1, hx.2, hr⟩),
            decide_eq_true (show x0 ≤ x'.val ∧ x'.val < x0 + 8 ∧ y ≤ y'.val ∧ y'.val < y + (row :: rows).length from ⟨hx.1, hx.2, h2⟩)]
          simp [hy]
        · have h2 : ¬ (y ≤ y'.val ∧ y'.val < y + (row :: rows).length) := by simp only [List.length_cons]; omega
          rw [decide_eq_false (fun h => hy h.2.2), decide_eq_false (fun h => hr h.2.2),
            decide_eq_false (fun h => h2 h.2.2)]
          simp
    · rw [decide_eq_false (fun h => hx ⟨h.1, h.2.1⟩), decide_eq_false (fun h => hx ⟨h.1, h.2.1⟩),
        decide_eq_false (fun h => hx ⟨h.1, h.2.1⟩)]
      simp

/-- A sprite's collision: there was one before, or it erases a lit cell, in whichever row. -/
theorem drawSprite_collision (x0 y : Nat) (rows : List Byte) (p : Framebuffer × Bool) :
    (drawSprite x0 y rows p).2 = true ↔
      p.2 = true ∨ ∃ (x' : Fin 64) (y' : Fin 32),
        (x0 ≤ x'.val ∧ x'.val < x0 + 8 ∧ y ≤ y'.val ∧ y'.val < y + rows.length) ∧
        (rows.getD (y'.val - y) 0).getLsbD (7 - (x'.val - x0)) = true ∧ cellAt p.1 x' y' = true := by
  induction rows generalizing y p with
  | nil =>
    constructor
    · exact .inl
    · rintro (h | ⟨x', y', ⟨_, _, h1, h2⟩, _⟩)
      · exact h
      · simp only [List.length_nil] at h2; omega
  | cons row rows ih =>
    rw [drawSprite, ih, drawRow_collision]
    have below : ∀ (x' : Fin 64) (y' : Fin 32), y + 1 ≤ y'.val →
        cellAt (drawRow row x0 y p).1 x' y' = cellAt p.1 x' y' := by
      intro x' y' h
      rw [drawRow_cell, decide_eq_false (fun e => by omega)]
      simp
    constructor
    · rintro ((h | ⟨x', y', ⟨h1, h2, h3⟩, hb, hl⟩) | ⟨x', y', ⟨h1, h2, h3, h4⟩, hb, hl⟩)
      · exact .inl h
      · refine .inr ⟨x', y', ⟨h1, h2, by omega, by simp only [List.length_cons]; omega⟩, ?_, hl⟩
        rw [h3, Nat.sub_self]
        exact hb
      · refine .inr ⟨x', y', ⟨h1, h2, by omega, by simp only [List.length_cons]; omega⟩, ?_, below x' y' h3 ▸ hl⟩
        rw [show y'.val - y = y'.val - (y + 1) + 1 by omega, List.getD_cons_succ]
        exact hb
    · rintro (h | ⟨x', y', ⟨h1, h2, h3, h4⟩, hb, hl⟩)
      · exact .inl (.inl h)
      · by_cases hy : y'.val = y
        · refine .inl (.inr ⟨x', y', ⟨h1, h2, hy⟩, ?_, hl⟩)
          rw [hy, Nat.sub_self] at hb
          exact hb
        · have h3' : y + 1 ≤ y'.val := by omega
          simp only [List.length_cons] at h4
          refine .inr ⟨x', y', ⟨h1, h2, h3', by omega⟩, ?_, (below x' y' h3').symm ▸ hl⟩
          rw [show y'.val - y = y'.val - (y + 1) + 1 by omega, List.getD_cons_succ] at hb
          exact hb

end Sys2Proof.Machine
end

