-- ==== Sys2Proof/Laws/Encoding.lean ====
section
/-! SUPPORT. The formats and the fields of a word: the fields of a format are what was put in, and every word is the format of
its fields (30_encoding.md rules R91, R92). -/

namespace Sys2Proof

theorem formatA_bit (c : Nibble) (nnn : Imm12) (j : Nat) :
    (formatA c nnn).getLsbD j = if j < 12 then nnn.getLsbD j else c.getLsbD (j - 12) := by
  have h := BitVec.getLsbD_append (x := c) (y := nnn) (i := j)
  exact Eq.trans h (by by_cases h12 : j < 12 <;> simp [h12])

theorem formatXK_bit (c : Nibble) (x : Reg) (nn : Byte) (j : Nat) :
    (formatXK c x nn).getLsbD j =
      if j < 8 then nn.getLsbD j else if j < 12 then (nibbleOf x).getLsbD (j - 8) else c.getLsbD (j - 12) := by
  have h := BitVec.getLsbD_append (x := c ++ nibbleOf x) (y := nn) (i := j)
  have h2 := BitVec.getLsbD_append (x := c) (y := nibbleOf x) (i := j - 8)
  refine Eq.trans h ?_
  rw [h2]
  by_cases h8 : j < 8
  · simp [h8]
  · by_cases h12 : j < 12
    · simp [h8, h12, show j - 8 < 4 by omega]
    · simp [h8, h12, show ¬ j - 8 < 4 by omega, show j - 8 - 4 = j - 12 by omega]

theorem formatXYN_bit (c : Nibble) (x y : Reg) (n : Nibble) (j : Nat) :
    (formatXYN c x y n).getLsbD j =
      if j < 4 then n.getLsbD j else if j < 8 then (nibbleOf y).getLsbD (j - 4)
      else if j < 12 then (nibbleOf x).getLsbD (j - 8) else c.getLsbD (j - 12) := by
  have h := BitVec.getLsbD_append (x := c ++ nibbleOf x) (y := nibbleOf y ++ n) (i := j)
  have h1 := BitVec.getLsbD_append (x := nibbleOf y) (y := n) (i := j)
  have h2 := BitVec.getLsbD_append (x := c) (y := nibbleOf x) (i := j - 8)
  refine Eq.trans h ?_
  rw [h1, h2]
  by_cases h4 : j < 4
  · simp [h4, show j < 8 by omega]
  · by_cases h8 : j < 8
    · simp [h4, h8]
    · by_cases h12 : j < 12
      · simp [h4, h8, h12, show j - 8 < 4 by omega]
      · simp [h4, h8, h12, show ¬ j - 8 < 4 by omega, show j - 8 - 4 = j - 12 by omega]

/-- Class and NNN of a format A word. -/
theorem formatA_fields (c : Nibble) (nnn : Imm12) :
    classOf (formatA c nnn) = c ∧ fieldNNN (formatA c nnn) = nnn := by
  constructor
  · apply BitVec.eq_of_getLsbD_eq
    intro j hj
    simp [classOf, formatA_bit, hj]
  · apply BitVec.eq_of_getLsbD_eq
    intro j hj
    simp [fieldNNN, formatA_bit, hj]

/-- Class, X and NN of a format XK or X word. -/
theorem formatXK_fields (c : Nibble) (x : Reg) (nn : Byte) :
    classOf (formatXK c x nn) = c ∧ fieldX (formatXK c x nn) = x ∧ fieldNN (formatXK c x nn) = nn := by
  refine ⟨?_, ?_, ?_⟩
  · apply BitVec.eq_of_getLsbD_eq
    intro j hj
    simp [classOf, formatXK_bit, hj, show ¬ 12 + j < 8 by omega]
  · have h : (formatXK c x nn).extractLsb' 8 4 = nibbleOf x := by
      apply BitVec.eq_of_getLsbD_eq
      intro j hj
      simp [formatXK_bit, hj, show 8 + j < 12 by omega]
    rw [fieldX, h]; rfl
  · apply BitVec.eq_of_getLsbD_eq
    intro j hj
    simp [fieldNN, formatXK_bit, hj]

/-- Class, X, Y and N of a format XY or XYN word. -/
theorem formatXYN_fields (c : Nibble) (x y : Reg) (n : Nibble) :
    classOf (formatXYN c x y n) = c ∧ fieldX (formatXYN c x y n) = x ∧ fieldY (formatXYN c x y n) = y ∧
      fieldN (formatXYN c x y n) = n := by
  refine ⟨?_, ?_, ?_, ?_⟩
  · apply BitVec.eq_of_getLsbD_eq
    intro j hj
    simp [classOf, formatXYN_bit, hj, show ¬ 12 + j < 8 by omega, show ¬ 12 + j < 4 by omega]
  · have h : (formatXYN c x y n).extractLsb' 8 4 = nibbleOf x := by
      apply BitVec.eq_of_getLsbD_eq
      intro j hj
      simp [formatXYN_bit, hj, show 8 + j < 12 by omega, show ¬ 8 + j < 4 by omega]
    rw [fieldX, h]; rfl
  · have h : (formatXYN c x y n).extractLsb' 4 4 = nibbleOf y := by
      apply BitVec.eq_of_getLsbD_eq
      intro j hj
      simp [formatXYN_bit, hj, show 4 + j < 8 by omega]
    rw [fieldY, h]; rfl
  · apply BitVec.eq_of_getLsbD_eq
    intro j hj
    simp [fieldN, formatXYN_bit, hj]

/-- Every word is the A format of its fields. -/
theorem eq_formatA (op : Word) : formatA (classOf op) (fieldNNN op) = op := by
  apply BitVec.eq_of_getLsbD_eq
  intro j hj
  rw [formatA_bit]
  split
  · simp [fieldNNN, *]
  · simp [classOf, show j - 12 < 4 by omega, show 12 + (j - 12) = j by omega]

theorem nibbleOf_fieldX (op : Word) : nibbleOf (fieldX op) = op.extractLsb' 8 4 := rfl
theorem nibbleOf_fieldY (op : Word) : nibbleOf (fieldY op) = op.extractLsb' 4 4 := rfl

/-- Every word is the XK format of its fields. -/
theorem eq_formatXK (op : Word) : formatXK (classOf op) (fieldX op) (fieldNN op) = op := by
  apply BitVec.eq_of_getLsbD_eq
  intro j hj
  rw [formatXK_bit, nibbleOf_fieldX]
  split
  · simp [fieldNN, *]
  · split
    · simp [show j - 8 < 4 by omega, show 8 + (j - 8) = j by omega]
    · simp [classOf, show j - 12 < 4 by omega, show 12 + (j - 12) = j by omega]

/-- Every word is the XYN format of its fields. -/
theorem eq_formatXYN (op : Word) : formatXYN (classOf op) (fieldX op) (fieldY op) (fieldN op) = op := by
  apply BitVec.eq_of_getLsbD_eq
  intro j hj
  rw [formatXYN_bit, nibbleOf_fieldX, nibbleOf_fieldY]
  split
  · simp [fieldN, *]
  · split
    · simp [show j - 4 < 4 by omega, show 4 + (j - 4) = j by omega]
    · split
      · simp [show j - 8 < 4 by omega, show 8 + (j - 8) = j by omega]
      · simp [classOf, show j - 12 < 4 by omega, show 12 + (j - 12) = j by omega]

end Sys2Proof
end

