-- ==== Sys2Proof/Laws/PerInstr.lean ====
section
/-! SUPPORT. The family RowMatch, said of every instruction: its row is a row of the opcode map, and that row selects its
encoding (30_encoding.md rule R96). -/

namespace Sys2Proof.Laws.RowMatch

/-- The instruction's row is in the opcode map and selects the instruction's word (30_encoding.md rule R96). -/
def Statement (i : Instr) : Prop := i.row ∈ opcodeMap ∧ i.row.selects (encode i)

/-! ### A format under its mask keeps its literal digits only -/

theorem formatA_masked (c : Nibble) (nnn : Imm12) : formatA c nnn &&& 0xF000 = formatA c 0 := by
  apply BitVec.eq_of_getLsbD_eq
  intro j hj
  simp only [BitVec.getLsbD_and, formatA_bit]
  interval_cases j <;> simp

theorem formatXK_masked (c : Nibble) (x : Reg) (nn : Byte) : formatXK c x nn &&& 0xF000 = formatXK c 0 0 := by
  apply BitVec.eq_of_getLsbD_eq
  intro j hj
  simp only [BitVec.getLsbD_and, formatXK_bit, nibbleOf]
  interval_cases j <;> simp

theorem formatX_masked (c : Nibble) (x : Reg) (nn : Byte) : formatXK c x nn &&& 0xF0FF = formatXK c 0 nn := by
  apply BitVec.eq_of_getLsbD_eq
  intro j hj
  simp only [BitVec.getLsbD_and, formatXK_bit, nibbleOf]
  interval_cases j <;> simp

theorem formatXY_masked (c : Nibble) (x y : Reg) (n : Nibble) :
    formatXYN c x y n &&& 0xF00F = formatXYN c 0 0 n := by
  apply BitVec.eq_of_getLsbD_eq
  intro j hj
  simp only [BitVec.getLsbD_and, formatXYN_bit, nibbleOf]
  interval_cases j <;> simp

theorem formatXYN_masked (c : Nibble) (x y : Reg) (n : Nibble) :
    formatXYN c x y n &&& 0xF000 = formatXYN c 0 0 0 := by
  apply BitVec.eq_of_getLsbD_eq
  intro j hj
  simp only [BitVec.getLsbD_and, formatXYN_bit, nibbleOf]
  interval_cases j <;> simp

/-! ### One lemma per instruction -/

theorem cls : Statement .cls := ⟨by decide, by decide⟩
theorem ret : Statement .ret := ⟨by decide, by decide⟩
theorem nop : Statement .nop := ⟨by decide, by decide⟩
theorem jp (nnn : Imm12) : Statement (.jp nnn) := ⟨by simp only [Instr.row]; decide, formatA_masked _ nnn⟩
theorem call (nnn : Imm12) : Statement (.call nnn) := ⟨by simp only [Instr.row]; decide, formatA_masked _ nnn⟩
theorem ldI (nnn : Imm12) : Statement (.ldI nnn) := ⟨by simp only [Instr.row]; decide, formatA_masked _ nnn⟩
theorem jpV0 (nnn : Imm12) : Statement (.jpV0 nnn) := ⟨by simp only [Instr.row]; decide, formatA_masked _ nnn⟩
theorem seImm (x : Reg) (nn : Byte) : Statement (.seImm x nn) := ⟨by simp only [Instr.row]; decide, formatXK_masked _ x nn⟩
theorem sneImm (x : Reg) (nn : Byte) : Statement (.sneImm x nn) := ⟨by simp only [Instr.row]; decide, formatXK_masked _ x nn⟩
theorem ldImm (x : Reg) (nn : Byte) : Statement (.ldImm x nn) := ⟨by simp only [Instr.row]; decide, formatXK_masked _ x nn⟩
theorem addImm (x : Reg) (nn : Byte) : Statement (.addImm x nn) := ⟨by simp only [Instr.row]; decide, formatXK_masked _ x nn⟩
theorem rnd (x : Reg) (nn : Byte) : Statement (.rnd x nn) := ⟨by simp only [Instr.row]; decide, formatXK_masked _ x nn⟩
theorem seReg (x y : Reg) : Statement (.seReg x y) := ⟨by simp only [Instr.row]; decide, formatXY_masked _ x y _⟩
theorem sneReg (x y : Reg) : Statement (.sneReg x y) := ⟨by simp only [Instr.row]; decide, formatXY_masked _ x y _⟩
theorem ldReg (x y : Reg) : Statement (.ldReg x y) := ⟨by simp only [Instr.row]; decide, formatXY_masked _ x y _⟩
theorem or (x y : Reg) : Statement (.or x y) := ⟨by simp only [Instr.row]; decide, formatXY_masked _ x y _⟩
theorem and (x y : Reg) : Statement (.and x y) := ⟨by simp only [Instr.row]; decide, formatXY_masked _ x y _⟩
theorem xor (x y : Reg) : Statement (.xor x y) := ⟨by simp only [Instr.row]; decide, formatXY_masked _ x y _⟩
theorem addReg (x y : Reg) : Statement (.addReg x y) := ⟨by simp only [Instr.row]; decide, formatXY_masked _ x y _⟩
theorem sub (x y : Reg) : Statement (.sub x y) := ⟨by simp only [Instr.row]; decide, formatXY_masked _ x y _⟩
theorem shr (x y : Reg) : Statement (.shr x y) := ⟨by simp only [Instr.row]; decide, formatXY_masked _ x y _⟩
theorem subn (x y : Reg) : Statement (.subn x y) := ⟨by simp only [Instr.row]; decide, formatXY_masked _ x y _⟩
theorem shl (x y : Reg) : Statement (.shl x y) := ⟨by simp only [Instr.row]; decide, formatXY_masked _ x y _⟩
theorem drw (x y : Reg) (n : Nat) : Statement (.drw x y n) := ⟨by simp only [Instr.row]; decide, formatXYN_masked _ x y _⟩
theorem skp (x : Reg) : Statement (.skp x) := ⟨by simp only [Instr.row]; decide, formatX_masked _ x _⟩
theorem sknp (x : Reg) : Statement (.sknp x) := ⟨by simp only [Instr.row]; decide, formatX_masked _ x _⟩
theorem ldVxDt (x : Reg) : Statement (.ldVxDt x) := ⟨by simp only [Instr.row]; decide, formatX_masked _ x _⟩
theorem ldDtVx (x : Reg) : Statement (.ldDtVx x) := ⟨by simp only [Instr.row]; decide, formatX_masked _ x _⟩
theorem ldStVx (x : Reg) : Statement (.ldStVx x) := ⟨by simp only [Instr.row]; decide, formatX_masked _ x _⟩
theorem ldVxKey (x : Reg) : Statement (.ldVxKey x) := ⟨by simp only [Instr.row]; decide, formatX_masked _ x _⟩
theorem addI (x : Reg) : Statement (.addI x) := ⟨by simp only [Instr.row]; decide, formatX_masked _ x _⟩
theorem ldF (x : Reg) : Statement (.ldF x) := ⟨by simp only [Instr.row]; decide, formatX_masked _ x _⟩
theorem ldB (x : Reg) : Statement (.ldB x) := ⟨by simp only [Instr.row]; decide, formatX_masked _ x _⟩
theorem storeRegs (x : Reg) : Statement (.storeRegs x) := ⟨by simp only [Instr.row]; decide, formatX_masked _ x _⟩
theorem loadRegs (x : Reg) : Statement (.loadRegs x) := ⟨by simp only [Instr.row]; decide, formatX_masked _ x _⟩

end Sys2Proof.Laws.RowMatch
end

