-- ==== Sys2Proof/Laws/Units.lean ====
section
/-! SUPPORT. What the timer unit, the keyboard unit and the host's steps can do, each said once. -/

namespace Sys2Proof.Machine

/-! ### The timer unit -/

/-- The delay sub-step changes DT only. -/
theorem delaySubStep_frame (s : State) : { delaySubStep s with dt := s.dt } = s := by
  unfold delaySubStep; split <;> rfl

/-- The sound sub-step changes ST and what has left the block only. -/
theorem soundSubStep_frame (s : State) : { soundSubStep s with st := s.st, outputs := s.outputs } = s := by
  unfold soundSubStep
  split
  · rfl
  · dsimp only
    split <;> rfl

/-- A step of the timer unit changes its counters, its phase and what has left the block only. -/
theorem timerStep_frame (s : State) :
    { timerStep s with dt := s.dt, st := s.st, tickPhase := s.tickPhase, outputs := s.outputs } = s := by
  unfold timerStep
  split
  · split
    · unfold delaySubStep; split <;> rfl
    · rfl
  · unfold soundSubStep
    split
    · rfl
    · dsimp only
      split <;> rfl

/-! ### The keyboard unit -/

/-- A step of the keyboard unit changes its own state only. -/
theorem keyboardStep_frame (now : Nat) (s : State) :
    { keyboardStep now s with key := s.key, expiry := s.expiry, keyboard := s.keyboard, keyQueue := s.keyQueue,
                              now := s.now } = s := by
  unfold keyboardStep
  dsimp only
  split
  · split <;> rfl
  · rfl
  · unfold inspectKey; split <;> rfl
  · unfold inspectKey; split <;> rfl

@[simp] theorem keyboardStep_now (now : Nat) (s : State) : (keyboardStep now s).now = now := by
  unfold keyboardStep
  dsimp only
  split
  · split <;> rfl
  · rfl
  · unfold inspectKey; split <;> rfl
  · unfold inspectKey; split <;> rfl

/-- What a step of the keyboard unit does to the flags and deadlines: a press, an inspection, or nothing. -/
theorem keyboardStep_keys (now : Nat) (s : State) :
    ((keyboardStep now s).key = s.key ∧ (keyboardStep now s).expiry = s.expiry) ∨
    (∃ k : Key, (keyboardStep now s).key = s.key.set k true ∧
      (keyboardStep now s).expiry = s.expiry.set k (now + Config.keyHold)) ∨
    (∃ k : Key, s.expiry[k] ≠ 0 ∧ s.expiry[k] ≤ now ∧ (keyboardStep now s).key = s.key.set k false ∧
      (keyboardStep now s).expiry = s.expiry.set k 0) := by
  have inspect : ∀ k : Key,
      ((inspectKey k now { s with now := now }).key = s.key ∧
        (inspectKey k now { s with now := now }).expiry = s.expiry) ∨
      (s.expiry[k] ≠ 0 ∧ s.expiry[k] ≤ now ∧ (inspectKey k now { s with now := now }).key = s.key.set k false ∧
        (inspectKey k now { s with now := now }).expiry = s.expiry.set k 0) := by
    intro k
    unfold inspectKey
    split
    · rename_i h
      simp only [expireEnabled, Bool.and_eq_true, decide_eq_true_eq] at h
      exact .inr ⟨h.1, h.2, rfl, rfl⟩
    · exact .inl ⟨rfl, rfl⟩
  unfold keyboardStep
  dsimp only
  split
  · split <;> exact .inl ⟨rfl, rfl⟩
  · rename_i k _ _
    exact .inr (.inl ⟨k, rfl, rfl⟩)
  · rcases inspect 0 with h | h
    · exact .inl h
    · exact .inr (.inr ⟨0, h⟩)
  · rename_i k _
    rcases inspect k with h | h
    · exact .inl h
    · exact .inr (.inr ⟨k, h⟩)

/-! ### The host -/

/-- The handshake changes the dirty flag and what has left the block only. -/
theorem handshake_frame (s : State) : { handshake s with dirty := s.dirty, outputs := s.outputs } = s := by
  unfold handshake; split <;> rfl

theorem handshake_of_clean {s : State} (h : s.dirty = false) : handshake s = s := by simp [handshake, h]

@[simp] theorem handshake_pc (s : State) : (handshake s).pc = s.pc := by unfold handshake; split <;> rfl
@[simp] theorem handshake_mem (s : State) : (handshake s).mem = s.mem := by unfold handshake; split <;> rfl
@[simp] theorem handshake_fetchWord (s : State) : (handshake s).fetchWord = s.fetchWord := by
  simp [State.fetchWord]

/-- What the wind-down can be: a handshake, a step of a unit, or nothing. -/
theorem windDown_cases (s : State) :
    windDown s = handshake s ∨ windDown s = timerStep s ∨ windDown s = keyboardStep s.now s ∨ windDown s = s := by
  unfold windDown
  split
  · exact .inl rfl
  · split
    · exact .inr (.inl rfl)
    · split
      · exact .inr (.inr (.inl rfl))
      · exact .inr (.inr (.inr rfl))

/-- Everything a cycle can answer with a next state: a decode failure, or the decoded instruction's own. -/
theorem cycle_next {s t : State} (h : cycle s = .next t) :
    (∃ i, decodeWord s.fetchWord = .instr i ∧ exec i (s.latch s.fetchWord) = .next t) ∨
    (∃ op, t = { s.latch op with halted := true }) := by
  obtain ⟨_, h⟩ := checkRange_next h
  split at h
  · rename_i i hi
    exact .inl ⟨i, hi, h⟩
  · rename_i op _
    exact .inr ⟨op, by cases h; rfl⟩
  · exact .inr ⟨s.fetchWord, by cases h; rfl⟩

/-- Everything the scheduler's turn can answer with a next state. -/
theorem schedulerTurn_next {s t : State} (h : schedulerTurn s = .next t) :
    s.fault = none ∧
    ((s.running = true ∧ s.halted = true ∧ t = s.stopRunning) ∨
     (s.running = true ∧ s.halted = false ∧ cycle (handshake s) = .next t) ∨
     (s.running = false ∧ t = windDown s)) := by
  unfold schedulerTurn at h
  split at h
  · cases h
  · rename_i hf
    refine ⟨hf, ?_⟩
    split at h
    · rename_i hr
      split at h
      · rename_i hh
        exact .inl ⟨hr, hh, by cases h; rfl⟩
      · rename_i hh
        exact .inr (.inl ⟨hr, by simpa using hh, h⟩)
    · rename_i hr
      exact .inr (.inr ⟨by simpa using hr, by cases h; rfl⟩)

/-! ### The order of the steps -/

/-- Taking a step off the order to come changes that order only. -/
theorem dropNext_frame (s : State) : { s.dropNext with schedule := s.schedule, source := s.source } = s := by
  unfold State.dropNext; split <;> rfl

@[simp] theorem dropNext_pc (s : State) : s.dropNext.pc = s.pc := by unfold State.dropNext; split <;> rfl
@[simp] theorem dropNext_mem (s : State) : s.dropNext.mem = s.mem := by unfold State.dropNext; split <;> rfl
@[simp] theorem dropNext_running (s : State) : s.dropNext.running = s.running := by unfold State.dropNext; split <;> rfl
@[simp] theorem dropNext_halted (s : State) : s.dropNext.halted = s.halted := by unfold State.dropNext; split <;> rfl
@[simp] theorem dropNext_fault (s : State) : s.dropNext.fault = s.fault := by unfold State.dropNext; split <;> rfl
@[simp] theorem dropNext_fetchWord (s : State) : s.dropNext.fetchWord = s.fetchWord := by simp [State.fetchWord]

theorem nextEvent_cons {s : State} {e : Event} {rest : List Event} (h : s.schedule = e :: rest) : s.nextEvent = e := by
  simp [State.nextEvent, h]

theorem dropNext_cons {s : State} {e : Event} {rest : List Event} (h : s.schedule = e :: rest) :
    s.dropNext = { s with schedule := rest } := by
  simp [State.dropNext, h]

/-- A step is the atomic step of the event that comes next, on the order to come without it. -/
theorem step_eq {s : State} {e : Event} (h : s.nextEvent = e) : step s = takeEvent e s.dropNext := by
  unfold step; rw [h]

end Sys2Proof.Machine
end

