-- ==== Sys2Proof/Tests/Slice0.lean ====
section
/-! SUPPORT. The model's own tests. Every expected value is transcribed from the tables of 95_test_vectors.md (the section is
named at each test) or worked out from the rule named there; none is an output of the model. The last part shows, for every
statement with hypotheses, a concrete case that meets them. -/

namespace Sys2Proof.Tests
open Sys2Proof.Machine

/-! ### Small states and readings -/

/-- The next state of an outcome, if it is one. -/
def nextOf : Host.Outcome State Fault Refusal → Option State
  | .next t => some t
  | .fault _ => none
  | .refused _ => none

/-- The fault of an outcome, if it is one. -/
def faultOf : Host.Outcome State Fault Refusal → Option Fault
  | .next _ => none
  | .fault r => some r
  | .refused _ => none

/-- The state after reset with some registers set. -/
def regs (rs : List (Reg × Byte)) : State := rs.foldl (fun s p => s.setV p.1 p.2) State.reset

/-- The state with bytes placed in memory. -/
def put (a : Nat) (bs : List Byte) (s : State) : State := s.setMem (Memory.writeBytes s.mem a bs)

/-- The state with some cells lit, each (x, y). -/
def lit (cells : List (Fin 64 × Fin 32)) (s : State) : State :=
  { s with fb := cells.foldl (fun fb c => toggleCell fb c.1 c.2) s.fb }

/-- The state with some keys pressed. -/
def keys (ks : List Key) (s : State) : State :=
  ks.foldl (fun t (k : Key) => { t with key := t.key.set k true }) s

/-- The state with the scheduler's turn next, and then the same order as before. -/
def turn (s : State) : State := { s with schedule := .scheduler :: s.schedule }

/-- What `f` reads of the state after one step that fetches the word `w` at `pc`. -/
def after {α : Type} (w : Nat) (s : State) (f : State → α) : Option α := (nextOf (step (s.withFetchWord 16 w))).map f

/-- The fault of one step that fetches the word `w` at `pc`. -/
def faults (w : Nat) (s : State) : Option Fault := faultOf (step (s.withFetchWord 16 w))

/-- The state with a sprite at 0x202 and I there, as 95_test_vectors.md section 2.5 places it. -/
def sprite (bs : List Byte) (s : State) : State := (put 0x202 bs s).setI 0x202

/-! ### WellFormed: one ill-formed term for its one check (30_encoding.md rule R92: N has 4 bits) -/

theorem test_wellFormed_refuses_sixteen_rows : (Instr.drw 0 0 16).wellFormed = false := by decide
theorem test_wellFormed_accepts_fifteen_rows : (Instr.drw 0xF 0xF 15).wellFormed = true := by decide

/-! ### Decoding: every constructor, from a word written out from its encoding (30_encoding.md rule R96; 95 section 2.1) -/

theorem test_decode_flow :
    decodeWord 0b0000000000000000 = .instr .nop ∧ decodeWord 0b0000000011101110 = .instr .ret ∧
    decodeWord 0b0001101010111100 = .instr (.jp 0xABC) ∧ decodeWord 0b0010111111111111 = .instr (.call 0xFFF) ∧
    decodeWord 0b0011101001111111 = .instr (.seImm 0xA 0x7F) ∧ decodeWord 0b0100101001111111 = .instr (.sneImm 0xA 0x7F) ∧
    decodeWord 0b0101101010110000 = .instr (.seReg 0xA 0xB) ∧ decodeWord 0b1001101010110000 = .instr (.sneReg 0xA 0xB) ∧
    decodeWord 0b1011111111111111 = .instr (.jpV0 0xFFF) := by decide

theorem test_decode_alu :
    decodeWord 0b0110101010011101 = .instr (.ldImm 0xA 0x9D) ∧ decodeWord 0b0111000100000011 = .instr (.addImm 1 3) ∧
    decodeWord 0b1000101010110000 = .instr (.ldReg 0xA 0xB) ∧ decodeWord 0b1000101010110001 = .instr (.or 0xA 0xB) ∧
    decodeWord 0b1000101010110010 = .instr (.and 0xA 0xB) ∧ decodeWord 0b1000101010110011 = .instr (.xor 0xA 0xB) ∧
    decodeWord 0b1000101010110100 = .instr (.addReg 0xA 0xB) ∧ decodeWord 0b1000101010110101 = .instr (.sub 0xA 0xB) ∧
    decodeWord 0b1000101010110110 = .instr (.shr 0xA 0xB) ∧ decodeWord 0b1000101010110111 = .instr (.subn 0xA 0xB) ∧
    decodeWord 0b1000101010111110 = .instr (.shl 0xA 0xB) ∧ decodeWord 0b1100000100001111 = .instr (.rnd 1 0x0F) := by
  decide

theorem test_decode_index :
    decodeWord 0b1010001100000000 = .instr (.ldI 0x300) ∧ decodeWord 0b1111000100011110 = .instr (.addI 1) ∧
    decodeWord 0b1111000100101001 = .instr (.ldF 1) ∧ decodeWord 0b1111000100110011 = .instr (.ldB 1) ∧
    decodeWord 0b1111000101010101 = .instr (.storeRegs 1) ∧ decodeWord 0b1111000101100101 = .instr (.loadRegs 1) := by
  decide

theorem test_decode_display :
    decodeWord 0b0000000011100000 = .instr .cls ∧ decodeWord 0b1101000100100101 = .instr (.drw 1 2 5) := by decide

theorem test_decode_timer_key :
    decodeWord 0b1110000110011110 = .instr (.skp 1) ∧ decodeWord 0b1110000110100001 = .instr (.sknp 1) ∧
    decodeWord 0b1111000100000111 = .instr (.ldVxDt 1) ∧ decodeWord 0b1111000100010101 = .instr (.ldDtVx 1) ∧
    decodeWord 0b1111000100011000 = .instr (.ldStVx 1) ∧ decodeWord 0b1111000100001010 = .instr (.ldVxKey 1) := by decide

/-- 95 section 2.1, the illegal rows. -/
theorem test_decode_illegal :
    ∀ w ∈ [0x00E1, 0x00EF, 0x0001, 0x0100, 0x01E0, 0x0FFF, 0x5AB1, 0x5ABF, 0x9AB1, 0x8AB8, 0x8AB9, 0x8ABA, 0x8ABB,
      0x8ABC, 0x8ABD, 0x8ABF, 0xE19F, 0xE100, 0xE1A0, 0xF100, 0xF105, 0xF175, 0xF185, 0xF1FF, 0xF11F],
      decodeTableWord 16 w = none := by decide

/-- 95 section 2.1, the last line, and 95 T11's shortest run of bytes: fewer than two bytes are no instruction. -/
theorem test_decode_byte_order :
    decodeBytes [0x12, 0x34] = .instr (.jp 0x234) ∧ decodeBytes [0x12] = .truncated ∧ decodeBytes [] = .truncated := by
  decide

/-- No two of the 35 rows can select one word (30_encoding.md rule R97). -/
theorem test_rows_disjoint :
    opcodeMap.Pairwise (fun r q => r.value &&& q.mask ≠ q.value &&& r.mask) ∧ opcodeMap.length = 35 := by decide

/-! ### Control flow (95 section 2.2) -/

theorem test_nop : nextOf (step (turn State.reset)) = some { State.reset with pc := 0x202 } := by decide
theorem test_nop_at_top : after 0x0000 (State.reset.setPc 0xFFE) (·.pc) = some 0x1000 := by decide
theorem test_ret :
    after 0x00EE { State.reset with pc := 0x212, sp := 1, stack := State.reset.stack.set 0 0x204 }
      (fun t => (t.sp, t.pc, t.stack[0])) = some (0, 0x206, 0x204) := by decide
theorem test_ret_underflow : faults 0x00EE State.reset = some (.stackUnderflow 0x200) := by decide
theorem test_jp : after 0x1203 State.reset (·.pc) = some 0x203 := by decide
theorem test_call :
    after 0x2300 { State.reset with sp := 14 } (fun t => (t.stack[14], t.sp, t.pc)) = some (0x200, 15, 0x300) := by decide
theorem test_call_overflow : faults 0x2300 { State.reset with sp := 15 } = some (.stackOverflow 0x200) := by decide
theorem test_seImm : after 0x3F01 (regs [(0xF, 1)]) (·.pc) = some 0x204 := by decide
theorem test_seImm_not_taken : after 0x3005 (regs [(0, 4)]) (·.pc) = some 0x202 := by decide
theorem test_sneImm : after 0x4005 (regs [(0, 4)]) (·.pc) = some 0x204 := by decide
theorem test_sneImm_not_taken : after 0x4F00 State.reset (·.pc) = some 0x202 := by decide
theorem test_seReg : after 0x5330 (regs [(3, 9)]) (·.pc) = some 0x204 := by decide
theorem test_seReg_not_taken : after 0x5010 (regs [(0, 7), (1, 8)]) (·.pc) = some 0x202 := by decide
theorem test_sneReg : after 0x9010 (regs [(0, 7), (1, 8)]) (·.pc) = some 0x204 := by decide
theorem test_sneReg_not_taken : after 0x9330 (regs [(3, 9)]) (·.pc) = some 0x202 := by decide
theorem test_jpV0_not_masked : after 0xBFFF (regs [(0, 0xFF)]) (·.pc) = some 0x10FE := by decide
theorem test_jpV0_ignores_vx : after 0xB500 (regs [(5, 0x10)]) (·.pc) = some 0x500 := by decide

/-! ### Loads, arithmetic, logic, shifts (95 section 2.3) -/

theorem test_ldImm : after 0x6A9D State.reset (fun t => (t.getV 0xA, t.pc, t.opcode)) = some (0x9D, 0x202, 0x6A9D) := by
  decide
theorem test_addImm :
    after 0x7101 (regs [(1, 0xFF), (0xF, 9)]) (fun t => (t.getV 1, t.getV VF)) = some (0x00, 9) := by decide
theorem test_ldReg : after 0x8120 (regs [(1, 0x5A), (2, 0x3C)]) (fun t => (t.getV 1, t.getV 2)) = some (0x3C, 0x3C) := by
  decide
theorem test_or : after 0x8121 (regs [(1, 0x5A), (2, 0x3C), (0xF, 9)]) (fun t => (t.getV 1, t.getV VF)) = some (0x7E, 9) := by
  decide
theorem test_and :
    after 0x8122 (regs [(1, 0x5A), (2, 0x3C), (0xF, 9)]) (fun t => (t.getV 1, t.getV VF)) = some (0x18, 9) := by decide
theorem test_xor :
    after 0x8123 (regs [(1, 0x5A), (2, 0x3C), (0xF, 9)]) (fun t => (t.getV 1, t.getV VF)) = some (0x66, 9) := by decide
theorem test_addReg : after 0x8124 (regs [(1, 0xF0), (2, 0x20)]) (fun t => (t.getV 1, t.getV VF)) = some (0x10, 0) := by
  decide
theorem test_addReg_aliased :
    after 0x81F4 (regs [(1, 0x00), (0xF, 0xFF)]) (fun t => (t.getV 1, t.getV VF)) = some (0xFF, 1) ∧
    after 0x8FF4 (regs [(0xF, 0x40)]) (fun t => t.getV VF) = some 1 := by decide
theorem test_sub : after 0x8125 (regs [(1, 0x10), (2, 0x20)]) (fun t => (t.getV 1, t.getV VF)) = some (0xF0, 0) := by decide
theorem test_sub_aliased :
    after 0x8F25 (regs [(0xF, 5), (2, 3)]) (fun t => t.getV VF) = some 0xFE ∧
    after 0x81F5 (regs [(1, 0x10), (0xF, 5)]) (fun t => (t.getV 1, t.getV VF)) = some (0x0F, 1) := by decide
theorem test_shr :
    after 0x8126 (regs [(1, 5), (2, 0xAA)]) (fun t => (t.getV 1, t.getV 2, t.getV VF)) = some (2, 0xAA, 1) := by decide
theorem test_shr_aliased : after 0x8F06 (regs [(0xF, 0xFF)]) (fun t => t.getV VF) = some 0 := by decide
theorem test_subn : after 0x8127 (regs [(1, 0x10), (2, 0x20)]) (fun t => (t.getV 1, t.getV VF)) = some (0x10, 1) := by decide
theorem test_subn_aliased :
    after 0x8F27 (regs [(0xF, 1), (2, 3)]) (fun t => t.getV VF) = some 2 ∧
    after 0x81F7 (regs [(1, 3), (0xF, 5)]) (fun t => (t.getV 1, t.getV VF)) = some (0xFE, 1) := by decide
theorem test_shl : after 0x812E (regs [(1, 0xFF)]) (fun t => (t.getV 1, t.getV VF)) = some (0xFE, 1) := by decide
theorem test_shl_aliased : after 0x8F0E (regs [(0xF, 0x80)]) (fun t => t.getV VF) = some 2 := by decide

/-- 95 section 2.3: with NN = 0 the result is 0 whatever byte is drawn, and a draw is used up. -/
theorem test_rnd_masks :
    ∃ t, exec (.rnd 1 0x00) (regs [(1, 0xFF)]) = .next t ∧ t.getV 1 = 0x00 ∧ t.pc = 0x202 ∧ t.draws = 1 :=
  ⟨_, rfl, BitVec.and_zero (x := Config.rnd 0), rfl, rfl⟩

/-! ### Index register and memory (95 section 2.4) -/

theorem test_ldI : after 0xAFFF (State.reset.setI 0x1234) (·.i) = some 0x0FFF := by decide
theorem test_addI :
    after 0xF11E ((regs [(1, 0x20)]).setI 0x0FF0) (fun t => (t.i, t.getV VF)) = some (0x1010, 1) ∧
    after 0xF11E ((regs [(1, 0x01)]).setI 0xFFFF) (fun t => (t.i, t.getV VF)) = some (0x0000, 1) := by decide
theorem test_addI_aliased :
    after 0xFF1E ((regs [(0xF, 2)]).setI 0x0FFE) (fun t => (t.i, t.getV VF)) = some (0x0FFF, 1) ∧
    after 0xFF1E ((regs [(0xF, 1)]).setI 0x0FFE) (fun t => (t.i, t.getV VF)) = some (0x0FFE, 0) := by decide
theorem test_ldF : after 0xF129 (regs [(1, 0x0F)]) (·.i) = some 0x004B ∧ after 0xF129 (regs [(1, 0xFF)]) (·.i) = some 0x04FB := by
  decide
theorem test_ldB :
    after 0xF133 ((regs [(1, 157)]).setI 0x300)
      (fun t => (Memory.readBytes t.mem 0x300 4, t.i)) = some ([1, 5, 7, 0], 0x300) := by decide
theorem test_ldB_range :
    faults 0xF033 (State.reset.setI 0xFFE) = some (.memoryOutOfRange 0x1000) ∧
    faults 0xF033 (State.reset.setI 0xFFD) = none := by decide
theorem test_storeRegs :
    after 0xF355 ((regs [(0, 0x11), (1, 0x22), (2, 0x33), (3, 0x44), (4, 0x55)]).setI 0x300)
      (fun t => (Memory.readBytes t.mem 0x300 5, t.i)) = some ([0x11, 0x22, 0x33, 0x44, 0x00], 0x304) := by decide
theorem test_storeRegs_range :
    after 0xF055 ((regs [(0, 7)]).setI 0xFFF) (fun t => (Memory.read t.mem 0xFFF, t.i)) = some (7, 0x1000) ∧
    faults 0xFF55 (State.reset.setI 0xFF1) = some (.memoryOutOfRange 0x1000) := by decide
theorem test_loadRegs :
    after 0xF365 ((put 0x300 [1, 2, 3, 4, 5] (regs [(4, 0x99)])).setI 0x300)
      (fun t => (t.v.toList.take 5, t.i)) = some ([1, 2, 3, 4, 0x99], 0x304) := by decide
theorem test_loadRegs_range : faults 0xF265 (State.reset.setI 0xFFE) = some (.memoryOutOfRange 0x1000) := by decide

/-! ### Framebuffer engine (95 section 2.5) -/

theorem test_cls :
    after 0x00E0 (lit [(3, 4), (63, 31)] (regs [(0xF, 9)]))
      (fun t => (decide (t.fb = blankFramebuffer), t.dirty, t.getV VF)) = some (true, true, 9) := by decide

/-- Bit order, and a pixel clipped at the right edge that neither wraps nor collides. -/
theorem test_drw_cells :
    after 0xD011 (sprite [0x81] (regs [(0, 0x0A), (1, 5)]))
      (fun t => (cellAt t.fb 10 5, cellAt t.fb 16 5, cellAt t.fb 17 5, t.getV VF)) = some (true, false, true, 0) ∧
    after 0xD011 (sprite [0xFF] (lit [(0, 0)] (regs [(0, 60)])))
      (fun t => (cellAt t.fb 0 0, cellAt t.fb 1 0, cellAt t.fb 63 0, t.getV VF)) = some (true, false, true, 0) := by decide

/-- A collision in the first row stays reported; the coordinates are read before VF is cleared; the range is checked first. -/
theorem test_drw_flag_and_range :
    after 0xD012 (sprite [0x80, 0x80] (lit [(0, 0)] State.reset))
      (fun t => (cellAt t.fb 0 0, cellAt t.fb 0 1, t.getV VF)) = some (false, true, 1) ∧
    after 0xDF01 (sprite [0x80] (regs [(0xF, 5), (0, 2)])) (fun t => (cellAt t.fb 5 2, t.getV VF)) = some (true, 0) ∧
    after 0xD000 ((regs [(0xF, 7)]).setI 0xFFFF) (fun t => (t.getV VF, t.dirty)) = some (0, true) ∧
    faults 0xD005 (State.reset.setI 0xFFC) = some (.memoryOutOfRange 0x1000) := by decide

/-! ### Timer access and keyboard instructions (95 section 2.6) -/

theorem test_ldVxDt : after 0xF007 { State.reset with dt := 0x3C } (fun t => (t.getV 0, t.dt)) = some (0x3C, 0x3C) := by decide
theorem test_ldDtVx : after 0xF015 (regs [(0, 0x3C)]) (fun t => (t.dt, t.st)) = some (0x3C, 0) := by decide
theorem test_ldStVx :
    after 0xF018 { State.reset with st := 1 } (fun t => (t.st, t.outputs)) = some (0, []) ∧
    after 0xF018 (regs [(0, 2)]) (fun t => (t.st, t.dt)) = some (2, 0) := by decide
theorem test_skp :
    after 0xE19E (keys [5] (regs [(1, 5)])) (·.pc) = some 0x204 ∧ after 0xE19E (regs [(1, 5)]) (·.pc) = some 0x202 := by decide
theorem test_sknp :
    after 0xE1A1 (keys [5] (regs [(1, 5)])) (·.pc) = some 0x202 ∧ after 0xE1A1 (regs [(1, 5)]) (·.pc) = some 0x204 := by decide
theorem test_key_index :
    faults 0xE09E (regs [(0, 0x10)]) = some (.keyIndexOutOfRange 0x10) ∧
    faults 0xE0A1 (regs [(0, 0xFF)]) = some (.keyIndexOutOfRange 0xFF) ∧ faults 0xE09E (regs [(0, 0x0F)]) = none := by decide
theorem test_ldVxKey_takes_the_least :
    after 0xF50A (keys [3, 7] State.reset) (fun t => (t.getV 5, t.pc)) = some (3, 0x202) := by decide
theorem test_ldVxKey_waits :
    after 0xF50A State.reset (fun t => (t.pc, t.getV 5, t.opcode, t.halted)) = some (0x200, 0, 0xF50A, false) := by decide

/-! ### The cycle, its failure and its faults (95 sections 2.2 and part 3) -/

/-- 95 P7: the word 0x5011 is illegal; then the scheduler clears `running`. -/
theorem test_decode_failure :
    after 0x5011 (State.reset.setPc 0x202) (fun t => (t.pc, t.opcode, t.halted, t.running)) =
      some (0x202, 0x5011, true, true) ∧
    (nextOf (step (turn { State.reset with halted := true }))).map (fun t => (t.running, t.pc)) = some (false, 0x200) := by decide

/-- 95 section 2.2, last rows: a fetch above 0xFFF. -/
theorem test_fetch_range :
    faultOf (step (turn (State.reset.setPc 0xFFF))) = some (.memoryOutOfRange 0x1000) ∧
    faultOf (step (turn (State.reset.setPc 0x10FE))) = some (.memoryOutOfRange 0x10FE) := by decide

/-- 95 P10, step 16: the recorded fault is (2, 0x200) and the state is otherwise as before. -/
theorem test_recorded_fault :
    let s := (put 0x200 [0x22, 0x00] State.reset).setV 0 1
    let full := { s with sp := 15 }
    recordOutcome full (cycle full) = { full with fault := some (.stackOverflow 0x200) } ∧
    outcomeNumber (cycle full) = some 2 ∧ faultInfo (.stackOverflow 0x200) = 0x200 := by decide

/-- 95 P9, steps 4 and 5: the store is seen by the next fetch. -/
theorem test_store_then_fetch :
    after 0xF155 ((put 0x208 [0, 0] (regs [(0, 0x12), (1, 0x08)])).setI 0x208 |>.setPc 0x206)
      (fun t => (t.pc, t.fetchWord)) = some (0x208, 0x1208) := by decide

/-- 95 P11, step 2: a fetch at an odd address. -/
theorem test_odd_pc :
    (nextOf (step (turn ((put 0x200 [0x12, 0x03, 0x00, 0x61, 0x2A, 0x12, 0x05, 0x00] State.reset).setPc 0x203)))).map
      (fun t => (t.getV 1, t.pc)) = some (0x2A, 0x205) := by decide

/-! ### The timer unit (95 section 2.7) -/

theorem test_tick_beeps_once :
    (let t := tick { State.reset with dt := 1, st := 1 }; (t.dt, t.st, t.outputs)) = (0, 0, [.beep]) ∧
    tick State.reset = State.reset := by decide
theorem test_tick_counts_down :
    (let t := tick { State.reset with dt := 2, st := 2 }; (t.dt, t.st, t.outputs)) = (1, 1, []) ∧
    (let t := tick { State.reset with st := 5 }; (t.dt, t.st)) = (0, 4) := by decide

/-- 95 section 2.7, last row: a cycle between the two sub-steps sees DT already decremented. -/
theorem test_cycle_inside_a_tick :
    let s := timerStep { State.reset with dt := 5, st := 3 }
    after 0xF007 s (fun t => (t.getV 0, t.st, (timerStep t).st)) = some (4, 3, 2) := by decide

/-! ### The keyboard unit (95 section 2.8) -/

theorem test_press : (let t := press 4 1000 State.reset; (t.key[4], t.expiry[4])) = (true, 1100) := by decide
set_option maxRecDepth 4000 in
theorem test_poll_releases_when_due :
    (poll 1099 (press 4 1000 State.reset)).key[4] = true ∧ (poll 1100 (press 4 1000 State.reset)).key[4] = false ∧
    (poll 1100 (press 4 1000 State.reset)).expiry[4] = 0 := by decide
set_option maxRecDepth 4000 in
theorem test_poll_drains_before_it_scans :
    (let t := poll 1100 { press 4 1000 State.reset with keyQueue := [4] }; (t.key[4], t.expiry[4], t.keyQueue)) =
      (true, 1200, []) := by decide

/-- 95 P8's poll, as atomic steps of the unit: the start, the press of key 3, the inspection of key 0. -/
theorem test_poll_in_steps :
    (let t := keyboardStep 1000 (keyboardStep 1000 (keyboardStep 1000 (queueKeyDown 3 State.reset)))
     (t.key[3], t.expiry[3], t.keyboard)) = (true, 1100, .scanning 1) := by decide

/-! ### The host (95 P4, section 2.5 last row; 60_exceptions.md rules R256 to R258) -/

theorem test_handshake_before_the_next_cycle :
    (nextOf (step (turn { State.reset with dirty := true }))).map (fun t => (t.dirty, t.pc, t.outputs)) =
      some (false, 0x202, [.frame State.reset.fb]) := by decide
theorem test_exit_request :
    (nextOf (step { State.reset with schedule := [.exitRequest] })).map (fun t => (t.running, t.pc, t.schedule)) =
      some (false, 0x200, []) := by decide
theorem test_snapshot :
    (nextOf (step { State.reset with schedule := [.snapshot], dt := 7 })).map (fun t => (t.outputs, t.dt)) =
      some ([.status { State.reset.status with dt := 7 }], 7) := by decide

/-! ### The order of the steps (60_exceptions.md rule R266) -/

/-- After `schedule` the open source goes on, number by number, and a repeating source begins again. -/
theorem test_order_to_come :
    (let s : State := { State.reset with schedule := [.timer] }
     s.nextEvent = .timer ∧ s.dropNext.nextEvent = Config.arrival 0 ∧ s.dropNext.dropNext.nextEvent = Config.arrival 1) ∧
    (let s : State := { State.reset with source := .repeating [.scheduler, .timer] }
     s.nextEvent = .scheduler ∧ s.dropNext.nextEvent = .timer ∧ s.dropNext.dropNext = s) :=
  ⟨⟨rfl, rfl, rfl⟩, rfl, rfl, rfl⟩

/-- A step of the timer unit after every second cycle, on the pattern of 95 P6: DT falls at the third step, and then the order is
as before. -/
theorem test_tick_after_every_second_cycle :
    (let s : State := { State.reset with source := .repeating [.scheduler, .scheduler, .timer], dt := 3 }
     ((nextOf (step s)).bind fun t => (nextOf (step t)).bind fun u => nextOf (step u)).map
       (fun t => (t.pc, t.dt, t.source))) = some (0x204, 2, .repeating [.scheduler, .scheduler, .timer]) := by decide

/-- An order that is weakly fair: a cycle, a step of the timer unit, a step of the keyboard unit 1 ms later, for ever. -/
theorem test_weakly_fair_order :
    WeaklyFair ({ State.reset with source := .repeating [.scheduler, .timer, .keyboard 1] } : State).upcoming where
  cycles n := ⟨3 * n, by omega, by simp [State.upcoming, State.reset]⟩
  ticks n := ⟨3 * n + 1, by omega, by simp [State.upcoming, State.reset]⟩
  polls n := ⟨3 * n + 2, 1, by omega, by omega, by simp [State.upcoming, State.reset]⟩

/-! ### Boot (95 T11, P1; 70_reset_and_hazards.md rules R281, R286) -/

theorem test_boot_too_short : State.boot [] = none ∧ State.boot [0x60] = none := by decide
set_option maxRecDepth 4000 in
theorem test_boot_loads :
    (State.boot [0x60, 0x00, 0x12, 0x00]).map
      (fun t => (Memory.readBytes t.mem 0x200 5, Memory.read t.mem 0, t.pc, decide (Memory.wf t.mem))) =
      some ([0x60, 0x00, 0x12, 0x00, 0x00], 0xF0, 0x200, true) := by decide

/-! ### Witnesses: for every statement with hypotheses, a case that meets them, at the boundary values of each clause -/

/-- A running state with key 4 pressed and its deadline ahead, and one with a key-down waiting. -/
def pressed : State := press 4 1000 { State.reset with now := 1000 }

theorem test_pressed_inv : pressed.Inv where
  mem_wf := by decide
  sp_legal := by decide
  key_iff_deadline := by decide
  now_pos := by decide
  deadline_near := by decide
  halted_clean := by decide

theorem test_witness_DecodeOfEncodeIsTheInstruction :
    (Instr.drw 0xF 0 15).wellFormed = true ∧ (Instr.jp 0xFFF).wellFormed = true := by decide
theorem test_witness_EncodeOfDecodeIsTheWord :
    decodeWord 0xFF65 = .instr (.loadRegs 0xF) ∧ decodeWord 0x0000 = .instr .nop := by decide
theorem test_witness_DecodeFollowsTheOpcodeMap :
    (⟨0x8004, 0xF00F⟩ : OpcodeRow) ∈ opcodeMap ∧ (⟨0x8004, 0xF00F⟩ : OpcodeRow).selects 0x8AB4 ∧
    decodeWord 0x8AB4 = .instr (.addReg 0xA 0xB) := by decide

/-- The last address a word can be fetched from; the turn from `schedule`, and from a source that repeats. -/
theorem test_witness_StepRunsTheDecodedInstruction :
    (let s := turn (State.reset.setPc 0xFFE)
     s.pc.toNat ≤ 0xFFE ∧ decodeBytes (Memory.readBytes s.mem s.pc.toNat 2) = .instr .nop ∧ s.CycleDue) ∧
    ({ State.reset with source := .repeating [.scheduler, .timer] } : State).CycleDue ∧
    ({ State.reset with source := .repeating [] } : State).CycleDue :=
  ⟨⟨by decide, by decide, ⟨rfl, rfl, rfl, rfl⟩⟩, ⟨rfl, rfl, rfl, rfl⟩, ⟨rfl, rfl, rfl, rfl⟩⟩

theorem test_witness_FetchBeyondMemoryFaults :
    0xFFE < (State.reset.setPc 0xFFF).pc.toNat ∧ 0xFFE < (State.reset.setPc 0xFFFF).pc.toNat := by decide
theorem test_witness_IllegalWordHaltsTheBlock :
    let s := (put 0xFFE [0x50, 0x11] State.reset).setPc 0xFFE
    s.pc.toNat ≤ 0xFFE ∧ isIllegalWord s.fetchWord = true := by decide
theorem test_witness_FaultIsRecordedAndStops :
    faultOf (cycle (State.reset.setPc 0xFFF)) = some (.memoryOutOfRange 0x1000) := by decide

/-- `sp` = 1 and 15, the ends of the range that returns, and `sp` = 0. -/
theorem test_witness_ReturnPopsTheStack :
    ({ State.reset with sp := 1 } : State).sp.toNat = (0 : Fin 16).val + 1 ∧
    ({ State.reset with sp := 15 } : State).sp.toNat = (14 : Fin 16).val + 1 ∧
    ({ State.reset with sp := 15 } : State).sp.toNat ≤ 15 ∧ State.reset.sp = 0 := by decide

/-- `sp` = 0 and 14, the ends of the range that calls, and `sp` = 15. -/
theorem test_witness_CallPushesItsAddress :
    State.reset.sp.toNat = (0 : Fin 16).val ∧ ({ State.reset with sp := 14 } : State).sp.toNat = (14 : Fin 16).val ∧
    (14 : Fin 16).val < 15 ∧ (3 : Fin 16) ≠ 14 ∧ ({ State.reset with sp := 15 } : State).sp.toNat = 15 := by decide

/-- A subroutine that has loaded a register before it returns. -/
theorem test_witness_ReturnResumesAfterTheCall :
    ∃ t : State, exec (.call 0x300) { State.reset with sp := 14 } = .next t ∧
      (∀ k : Fin 16, 14 = k.val → ((t.setV 3 9).setPc 0x302).stack[k] = t.stack[k]) ∧
      ((t.setV 3 9).setPc 0x302).sp = t.sp :=
  ⟨_, rfl, fun _ _ => rfl, rfl⟩

/-- A subroutine that has made a call of its own, whose stale entry stays in the stack (40_flow.md rule R122). -/
theorem test_witness_ReturnResumesAfterANestedCall :
    ∃ t t1 u : State, exec (.call 0x300) { State.reset with sp := 13 } = .next t ∧ exec (.call 0x400) t = .next t1 ∧
      exec .ret t1 = .next u ∧ (∀ k : Fin 16, 13 = k.val → u.stack[k] = t.stack[k]) ∧ u.sp = t.sp ∧ u.stack ≠ t.stack :=
  ⟨_, _, _, rfl, rfl, rfl, by decide, by decide, by decide⟩

/-- The register clauses of the ALU statements: a register other than X, X other than VF, X equal to VF. -/
theorem test_witness_alu_clauses : (2 : Reg) ≠ 1 ∧ (1 : Reg) ≠ VF ∧ (2 : Reg) ≠ VF ∧ (0xF : Reg) = VF := by decide

/-- I at the last address where all three bytes fit, at the next one, and at the largest value of I. -/
theorem test_witness_BcdStoresThreeDigits :
    (State.reset.setI 0xFFD).i.toNat + 2 ≤ 0xFFF ∧ 0xFFF < (State.reset.setI 0xFFE).i.toNat + 2 ∧
    0xFFF < (State.reset.setI 0xFFFF).i.toNat + 2 := by decide

/-- FX55 and FX65, X = 0 and X = F, at the last address that fits and at the next one. -/
theorem test_witness_StoreRegistersMovesIndex :
    (State.reset.setI 0xFFF).i.toNat + (0 : Reg).val ≤ 0xFFF ∧ 0xFFF < (State.reset.setI 0x1000).i.toNat + (0 : Reg).val ∧
    (State.reset.setI 0xFF0).i.toNat + (0xF : Reg).val ≤ 0xFFF ∧
    0xFFF < (State.reset.setI 0xFF1).i.toNat + (0xF : Reg).val := by decide
theorem test_witness_LoadRegistersMovesIndex :
    (State.reset.setI 0xFF0).i.toNat + (0xF : Reg).val ≤ 0xFFF ∧ 0xFFF < (State.reset.setI 0xFF1).i.toNat + (0xF : Reg).val ∧
    (3 : Reg) ≤ 3 ∧ (3 : Reg) < 4 := by decide

/-- Between the store and the load the registers have changed and I has been set back. -/
theorem test_witness_LoadUndoesStore :
    ∃ t : State, exec (.storeRegs 3) ((regs [(0, 0x11), (3, 0x44)]).setI 0x300) = .next t ∧
      (((t.setV 0 0).setV 3 0).setI 0x300).mem = t.mem ∧
      (((t.setV 0 0).setV 3 0).setI 0x300).i = ((regs [(0, 0x11), (3, 0x44)]).setI 0x300).i :=
  ⟨_, rfl, rfl, rfl⟩

/-- No rows with I at its largest; the last byte at 0xFFF; one byte too many. -/
theorem test_witness_DrawTogglesTheSpriteCells :
    (State.reset.setI 0xFFC).i.toNat + (4 - 1) ≤ 0xFFF ∧ 0 < 5 ∧ 0xFFF < (State.reset.setI 0xFFC).i.toNat + (5 - 1) ∧
    (State.reset.setI 0xFFFF).i.toNat = 0xFFFF := by decide

/-- A draw that erases a lit cell, and one that erases none. -/
theorem test_witness_draw_collision :
    (nextOf (exec (.drw 0 1 1) (sprite [0x80] (lit [(0, 0)] State.reset)))).map (fun t => cellAt t.fb 0 0) = some false ∧
    cellAt (lit [(0, 0)] State.reset).fb 0 0 = true ∧
    (nextOf (exec (.drw 0 1 1) (sprite [0x80] State.reset))).map (fun t => t.getV VF) = some 0 := by decide

/-- With the coordinates in V0 and V1, and with both in VF, which the draw leaves 0. -/
theorem test_witness_DrawingTwiceRestores :
    (∃ t, exec (.drw 0 1 5) State.reset = .next t ∧ (t.getV 0).toNat % 64 = (State.reset.getV 0).toNat % 64 ∧
      (t.getV 1).toNat % 32 = (State.reset.getV 1).toNat % 32) ∧
    (∃ t, exec (.drw 0xF 0xF 5) State.reset = .next t ∧
      (t.getV 0xF).toNat % 64 = (State.reset.getV 0xF).toNat % 64 ∧
      (t.getV 0xF).toNat % 32 = (State.reset.getV 0xF).toNat % 32) :=
  ⟨⟨_, rfl, by decide, by decide⟩, ⟨_, rfl, by decide, by decide⟩⟩

/-- V[X] = 15, the last key, and V[X] = 16, no key. -/
theorem test_witness_KeySkipsTestTheFlag :
    ((regs [(0, 15)]).getV 0).toNat = (15 : Key).val ∧ 15 < ((regs [(0, 16)]).getV 0).toNat := by decide

/-- Keys 3 and 7 pressed; only key 15 pressed; no key pressed. -/
theorem test_witness_KeyWaitTakesTheLeastKey :
    (keys [3, 7] State.reset).key[3] = true ∧ (∀ j : Key, j < 3 → (keys [3, 7] State.reset).key[j] = false) ∧
    (keys [15] State.reset).key[15] = true ∧ (∀ j : Key, j < 15 → (keys [15] State.reset).key[j] = false) ∧
    (∀ k : Key, State.reset.key[k] = false) ∧ State.reset.halted = false := by decide

theorem test_witness_TimerStepsMakeTicks :
    State.reset.tickPhase = .idle ∧ State.reset.running = true ∧ (timerStep State.reset).tickPhase = .soundDue ∧
    State.reset.stopRunning.tickPhase = .idle ∧ State.reset.stopRunning.running = false := by decide

/-- A deadline that has just elapsed, one that elapses 1 ms later, and none. -/
theorem test_witness_PressAndExpireMoveOneKey :
    pressed.expiry[4] ≠ 0 ∧ pressed.expiry[4] ≤ 1100 ∧ 1099 < pressed.expiry[4] ∧ pressed.expiry[5] = 0 ∧
    (5 : Key) ≠ 4 := by decide

theorem test_witness_KeyboardStepsMakeAPoll :
    pressed.keyboard = .idle ∧ pressed.running = true ∧ pressed.stopRunning.keyboard = .idle ∧
    pressed.stopRunning.running = false := by decide

/-- A key with a press waiting, a key whose deadline elapses at 1100, the same key at 1099, and a key with no deadline. -/
theorem test_witness_PollReleasesDueKeys :
    let s := queueKeyDown 3 pressed
    (3 : Key) ∈ s.keyQueue ∧ (4 : Key) ∉ s.keyQueue ∧ s.expiry[4] ≠ 0 ∧ s.expiry[4] ≤ 1100 ∧ 1099 < s.expiry[4] ∧
    (5 : Key) ∉ s.keyQueue ∧ s.expiry[5] = 0 := by decide

/-- The unit's time has come to 1 ms before the deadline; the invariant holds by `test_pressed_inv`. -/
theorem test_witness_PressedKeyHoldsUntilItsDeadline :
    ∃ s t : State, s.Inv ∧ step s = .next t ∧ s.key[(4 : Key)] = true ∧ t.now < s.expiry[(4 : Key)] :=
  ⟨{ pressed with schedule := [.keyboard 99] }, _,
    ⟨test_pressed_inv.mem_wf, test_pressed_inv.sp_legal, test_pressed_inv.key_iff_deadline, test_pressed_inv.now_pos,
      test_pressed_inv.deadline_near, test_pressed_inv.halted_clean⟩, rfl, by decide, by decide⟩

/-- A dirty framebuffer after a good cycle; a clean one; a dirty flag after a failed cycle. -/
theorem test_witness_HandshakeHandsOverOnce :
    ({ State.reset with dirty := true } : State).dirty = true ∧ ({ State.reset with dirty := true } : State).halted = false ∧
    State.reset.dirty = false ∧ ({ State.reset with dirty := true, halted := true } : State).halted = true := by decide

/-- The turn after a failed cycle; a step of the timer unit after shutdown; a block that has come to rest. -/
theorem test_witness_ShutdownStartsNothing :
    (let s : State := { State.reset with halted := true }; s.fault = none ∧ s.running = true ∧ s.halted = true) ∧
    (nextOf (step { State.reset.stopRunning with schedule := [.timer] })).isSome = true ∧
    (let s := State.reset.stopRunning
     s.fault = none ∧ s.running = false ∧ s.dirty = false ∧ s.tickPhase = .idle ∧ s.keyboard = .idle) := by decide

/-- A font of 80 bytes, and images of 1 and of 2 bytes. -/
theorem test_witness_BootLoadsFontAndImage :
    Config.font.length = 80 ∧ ([0x12] : List Byte).length < 2 ∧ 2 ≤ ([0x12, 0x00] : List Byte).length := by decide

/-- A step that answers a next state, from a state with the invariant (`test_pressed_inv`). -/
theorem test_witness_EveryStepKeepsTheInvariant : ∃ t, pressed.Inv ∧ (turn pressed).Inv ∧ step (turn pressed) = .next t :=
  ⟨_, test_pressed_inv, ⟨test_pressed_inv.mem_wf, test_pressed_inv.sp_legal, test_pressed_inv.key_iff_deadline,
    test_pressed_inv.now_pos, test_pressed_inv.deadline_near, test_pressed_inv.halted_clean⟩, rfl⟩

/-- Steps after each of the two flags has moved. -/
theorem test_witness_StopFlagsAreSticky :
    (nextOf (step (turn { State.reset with halted := true }))).isSome = true ∧
    (nextOf (step { State.reset with running := false, schedule := [.handshake, .timer] })).isSome = true := by decide

/-- A store next to a byte outside it, and an instruction that draws nothing. -/
theorem test_witness_OnlyStoresAndDrawsWrite :
    (nextOf (exec (.ldB 1) (State.reset.setI 0xFFD))).isSome = true ∧
    0xFFC < (State.reset.setI 0xFFD).i.toNat ∧ (State.reset.setI 0xFFD).i.toNat + storedBytes (.ldB 1) ≤ 0x1000 ∧
    writesFramebuffer (.ldB 1) = false := by decide

theorem test_witness_InstructionsLeaveTheOtherAgents :
    (nextOf (exec (.addReg 1 2) pressed)).isSome = true ∧ (nextOf (exec (.ldVxKey 1) pressed)).isSome = true := by decide

/-- A register that is no destination of a flag-writing instruction, and VF under one that writes no flag. -/
theorem test_witness_OnlyDestinationsAndFlagsWritten :
    (nextOf (exec (.addReg 1 2) State.reset)).isSome = true ∧ isDestination 3 (.addReg 1 2) = false ∧ (3 : Reg) ≠ VF ∧
    isDestination VF (.addImm 1 3) = false ∧ writesFlag (.addImm 1 3) = false := by decide

theorem test_witness_PcAdvancesByTheLaw :
    (nextOf (exec (.seReg 3 3) State.reset)).isSome = true ∧ setsPc (.seReg 3 3) = false ∧
    (nextOf (exec (.ldVxKey 3) State.reset)).isSome = true ∧ setsPc (.ldVxKey 3) = false := by decide

/-- `sp` at the ends of its range; inside and outside the domain. -/
theorem test_witness_InstructionsSucceedInTheirDomain :
    State.reset.sp.toNat ≤ 15 ∧ ({ State.reset with sp := 15 } : State).sp.toNat ≤ 15 ∧
    inDomain State.reset (.call 0x300) ∧ ¬ inDomain { State.reset with sp := 15 } (.call 0x300) ∧
    ¬ inDomain State.reset .ret ∧ inDomain (State.reset.setI 0xFFFF) (.drw 0 0 0) ∧
    ¬ inDomain (State.reset.setI 0xFFFF) (.drw 0 0 2) :=
  ⟨by decide, by decide, show (0 : Nat) < 15 by decide, show ¬ (15 : Nat) < 15 by decide, show ¬ (0 : Nat) < 0 by decide,
    .inl rfl, show ¬ (2 = 0 ∨ 0xFFFF + (2 - 1) ≤ 0xFFF) by decide⟩

end Sys2Proof.Tests
end

section
/-! The two-byte fetch as arithmetic on naturals (20_memory.md rule R62). -/

namespace Sys2Proof.Machine

/-- Appending the low byte to the high byte is addition, because the low byte stays below the shifted high one. -/
@[simp] theorem toNat_wordOfBytes (hi lo : Byte) : (wordOfBytes hi lo).toNat = hi.toNat * 256 + lo.toNat :=
  calc (wordOfBytes hi lo).toNat
    _ = hi.toNat <<< 8 ||| lo.toNat := BitVec.toNat_append hi lo
    _ = hi.toNat <<< 8 + lo.toNat := (Nat.shiftLeft_add_eq_or_of_lt lo.isLt _).symm
    _ = hi.toNat * 256 + lo.toNat := by rw [Nat.shiftLeft_eq]

/-- Settles O6: the fetched word is `wordOfBytes` of the bytes at `pc` and `pc + 1`, whose value is known. -/
theorem fetchIsBigEndian : Obligations.FetchIsBigEndian := fun _ => toNat_wordOfBytes _ _

end Sys2Proof.Machine
end

section
/-! Control flow that moves `pc` alone: fall-through, jump and conditional skips (40_flow.md rules R121, R123, R125 to
R128). Each of these instructions ends in one `setPc`, so one frame serves them all. -/

namespace Sys2Proof.Machine

/-! ### What the instructions do -/

theorem exec_nop (s : State) : exec .nop s = .next (s.advance 2) := rfl

theorem exec_jp (nnn : Imm12) (s : State) : exec (.jp nnn) s = .next (s.setPc (immWord nnn)) := rfl

theorem exec_seImm (x : Reg) (nn : Byte) (s : State) : exec (.seImm x nn) s = .next (s.skipIf (s.getV x == nn)) := rfl

theorem exec_sneImm (x : Reg) (nn : Byte) (s : State) : exec (.sneImm x nn) s = .next (s.skipIf (s.getV x != nn)) := rfl

theorem exec_seReg (x y : Reg) (s : State) : exec (.seReg x y) s = .next (s.skipIf (s.getV x == s.getV y)) := rfl

theorem exec_sneReg (x y : Reg) (s : State) : exec (.sneReg x y) s = .next (s.skipIf (s.getV x != s.getV y)) := rfl

/-! ### Where they leave `pc`, and the frame -/

/-- Zero extension keeps the value. -/
@[simp] theorem toNat_immWord (nnn : Imm12) : (immWord nnn).toNat = nnn.toNat :=
  BitVec.toNat_setWidth_of_le (by decide)

/-- A skip on equal bytes, its condition read on naturals. -/
theorem State.skipIf_beq_pc (s : State) (a b : Byte) :
    (s.skipIf (a == b)).pc = s.pc + (if a.toNat = b.toNat then 4 else 2) := by
  by_cases h : a = b
  · simp [h]
  · simp [h, BitVec.toNat_inj]

/-- A skip on different bytes, its condition read on naturals. -/
theorem State.skipIf_bne_pc (s : State) (a b : Byte) :
    (s.skipIf (a != b)).pc = s.pc + (if a.toNat = b.toNat then 2 else 4) := by
  by_cases h : a = b
  · simp [h]
  · simp [h, BitVec.toNat_inj]

/-- The frame of every update that moves `pc` alone; `advance` and `skipIf` are such updates by definition. -/
theorem State.setPc_frame (s : State) (w : Word) :
    (∀ r, (s.setPc w).getV r = s.getV r) ∧ (∀ a, Memory.read (s.setPc w).mem a = Memory.read s.mem a) ∧
      { s.setPc w with pc := s.pc } = s :=
  ⟨s.getV_setPc w, fun a => congrArg (Memory.read · a) (s.setPc_mem w), rfl⟩

/-! ### The statements -/

/-- Settles O11: NOP is one advance by 2. -/
theorem nopOnlyAdvances : Obligations.NopOnlyAdvances := fun s =>
  ⟨rfl, _, exec_nop s, s.advance_pc 2, s.setPc_frame _⟩

/-- Settles O13: the jump writes NNN, widened without a change of value, to `pc`. -/
theorem jumpSetsPc : Obligations.JumpSetsPc := fun nnn s =>
  ⟨rfl, _, exec_jp nnn s, toNat_immWord nnn, s.setPc_frame _⟩

/-- Settles O16: both instructions end in `skipIf` on V[X] and NN. -/
theorem immediateSkipsAdvanceTwoOrFour : Obligations.ImmediateSkipsAdvanceTwoOrFour := fun x nn s =>
  ⟨rfl, rfl, ⟨_, exec_seImm x nn s, s.skipIf_beq_pc _ _, s.setPc_frame _⟩,
    ⟨_, exec_sneImm x nn s, s.skipIf_bne_pc _ _, s.setPc_frame _⟩⟩

/-- Settles O17: both instructions end in `skipIf` on V[X] and V[Y]; X = Y needs no case of its own. -/
theorem registerSkipsAdvanceTwoOrFour : Obligations.RegisterSkipsAdvanceTwoOrFour := fun x y s =>
  ⟨rfl, rfl, ⟨_, exec_seReg x y s, s.skipIf_beq_pc _ _, s.setPc_frame _⟩,
    ⟨_, exec_sneReg x y s, s.skipIf_bne_pc _ _, s.setPc_frame _⟩⟩

end Sys2Proof.Machine
end

section
/-! Loads, the immediate addition and the bitwise instructions (41_alu.md rules R141 to R146). Each of them is one register
write and an advance by 2, so one law of the written register and one frame serve them all. -/

namespace Sys2Proof.Machine

/-! ### What the instructions do -/

theorem exec_ldImm (x : Reg) (nn : Byte) (s : State) : exec (.ldImm x nn) s = .next ((s.setV x nn).advance 2) := rfl

theorem exec_addImm (x : Reg) (nn : Byte) (s : State) :
    exec (.addImm x nn) s = .next ((s.setV x (s.getV x + nn)).advance 2) := rfl

theorem exec_ldReg (x y : Reg) (s : State) : exec (.ldReg x y) s = .next ((s.setV x (s.getV y)).advance 2) := rfl

theorem exec_or (x y : Reg) (s : State) :
    exec (.or x y) s = .next ((s.setV x (s.getV x ||| s.getV y)).advance 2) := rfl

theorem exec_and (x y : Reg) (s : State) :
    exec (.and x y) s = .next ((s.setV x (s.getV x &&& s.getV y)).advance 2) := rfl

theorem exec_xor (x y : Reg) (s : State) :
    exec (.xor x y) s = .next ((s.setV x (s.getV x ^^^ s.getV y)).advance 2) := rfl

/-! ### One register write and an advance -/

/-- The written register, read after the advance. -/
theorem State.getV_setV_advance (s : State) (x : Reg) (b : Byte) (n : Nat) : ((s.setV x b).advance n).getV x = b := by
  rw [State.getV_advance, State.getV_setV_self]

/-- The frame of one register write and an advance: `pc` moves on and every other register and field is kept. VF is among
the kept registers unless it is the one written. -/
theorem State.setV_advance_frame (s : State) (x : Reg) (b : Byte) (n : Nat) :
    ((s.setV x b).advance n).pc = s.pc + BitVec.ofNat 16 n ∧
      (∀ r, r ≠ x → ((s.setV x b).advance n).getV r = s.getV r) ∧
      (∀ a, Memory.read ((s.setV x b).advance n).mem a = Memory.read s.mem a) ∧
      { (s.setV x b).advance n with pc := s.pc, v := s.v } = s :=
  ⟨rfl, fun r hr => by rw [State.getV_advance, State.getV_setV_ne s b hr],
    fun a => by rw [State.advance_mem, State.setV_mem], rfl⟩

/-! ### The statements -/

/-- Settles O19: both loads are one write, of NN and of V[Y]. -/
theorem loadsWriteVx : Obligations.LoadsWriteVx := fun x y nn s =>
  ⟨rfl, rfl, ⟨_, exec_ldImm x nn s, s.getV_setV_advance x nn 2, s.setV_advance_frame x nn 2⟩,
    ⟨_, exec_ldReg x y s, s.getV_setV_advance x (s.getV y) 2, s.setV_advance_frame x (s.getV y) 2⟩⟩

/-- Settles O20: the byte written is the sum of two bytes, which wraps mod 256. -/
theorem addImmediateWraps : Obligations.AddImmediateWraps := fun x nn s => by
  refine ⟨rfl, _, exec_addImm x nn s, ?_, s.setV_advance_frame x _ 2⟩
  rw [State.getV_setV_advance]
  exact BitVec.toNat_add (s.getV x) nn

/-- Settles O21: the byte written is the bitwise operation on V[X] and V[Y], which acts on each bit alone. -/
theorem bitwiseInstructionsWriteVx : Obligations.BitwiseInstructionsWriteVx := fun x y s => by
  refine ⟨rfl, rfl, rfl, ⟨_, exec_or x y s, fun b => ?_, s.setV_advance_frame x _ 2⟩,
    ⟨_, exec_and x y s, fun b => ?_, s.setV_advance_frame x _ 2⟩,
    ⟨_, exec_xor x y s, fun b => ?_, s.setV_advance_frame x _ 2⟩⟩
  · rw [State.getV_setV_advance, BitVec.getLsbD_or]
  · rw [State.getV_setV_advance, BitVec.getLsbD_and]
  · rw [State.getV_setV_advance, BitVec.getLsbD_xor]

end Sys2Proof.Machine
end

section
/-! Clearing the framebuffer (43_display.md rule R191): two fields are overwritten and `pc` moves on. -/

namespace Sys2Proof.Machine

theorem exec_cls (s : State) :
    exec .cls s = .next ({ s with fb := blankFramebuffer, dirty := true }.advance 2) := rfl

/-- The frame of an update of the display's two fields and an advance: `pc` moves on and every register, VF included, every
byte of memory and every other field is kept. -/
theorem State.display_advance_frame (s : State) (fb : Framebuffer) (dirty : Bool) (n : Nat) :
    let t := { s with fb := fb, dirty := dirty }.advance n
    t.pc = s.pc + BitVec.ofNat 16 n ∧ (∀ r, t.getV r = s.getV r) ∧
      (∀ a, Memory.read t.mem a = Memory.read s.mem a) ∧
      { t with pc := s.pc, fb := s.fb, dirty := s.dirty } = s :=
  ⟨State.advance_pc _ n, State.getV_advance _ n, fun a => congrArg (Memory.read · a) (State.advance_mem _ n), rfl⟩

/-- Settles O34: the framebuffer is overwritten by the blank one and `dirty` by true, with no look at the cells before. -/
theorem clearBlanksTheFramebuffer : Obligations.ClearBlanksTheFramebuffer := fun s =>
  ⟨rfl, _, exec_cls s, cellAt_blank, State.advance_dirty _ 2, s.display_advance_frame blankFramebuffer true 2⟩

end Sys2Proof.Machine
end

section
/-! Waiting for a key (44_timer_key_instr.md rule R215). A pressed key gives one register write and an advance by 2, with
the frame of a register load; no pressed key leaves the whole state as it is. -/

namespace Sys2Proof.Machine

/-! ### The least pressed key -/

theorem allKeys_eq_finRange : allKeys = List.finRange 16 := by decide

/-- The search through the keys in ascending order is the library's search through `Fin 16`, which gives the two laws below. -/
theorem State.firstKey_eq_finFind (s : State) : s.firstKey = Fin.find? (fun k : Key => s.key[k]) := by
  rw [State.firstKey, allKeys_eq_finRange, Fin.find?_eq_find?_finRange]

theorem State.firstKey_eq_none_iff (s : State) : s.firstKey = none ↔ ∀ k : Key, s.key[k] = false := by
  rw [State.firstKey_eq_finFind, Fin.find?_eq_none_iff]

theorem State.firstKey_eq_some_iff (s : State) (k : Key) :
    s.firstKey = some k ↔ s.key[k] = true ∧ ∀ j : Key, j < k → s.key[j] = false := by
  rw [State.firstKey_eq_finFind, Fin.find?_eq_some_iff]

/-- A key's number fits in a register. -/
theorem toNat_ofNat_key (k : Key) : (BitVec.ofNat 8 k.val).toNat = k.val := by
  rw [BitVec.toNat_ofNat, Nat.mod_eq_of_lt (by omega)]

/-! ### What the instruction does -/

theorem exec_ldVxKey_of_pressed {s : State} {k : Key} (x : Reg) (h : s.firstKey = some k) :
    exec (.ldVxKey x) s = .next ((s.setV x (BitVec.ofNat 8 k.val)).advance 2) := by
  simp only [exec, execLdVxKey, h]

theorem exec_ldVxKey_of_no_key {s : State} (x : Reg) (h : s.firstKey = none) : exec (.ldVxKey x) s = .next s := by
  simp only [exec, execLdVxKey, h]

/-- The instruction always completes and never changes `halted`, so its answer is ok in a state that is not halted. -/
theorem answerOf_exec_ldVxKey {s : State} (x : Reg) (hs : s.halted = false) :
    answerOf (exec (.ldVxKey x) s) = some .ok := by
  cases h : s.firstKey with
  | none => rw [exec_ldVxKey_of_no_key x h, answerOf_next, hs]; rfl
  | some k => rw [exec_ldVxKey_of_pressed x h, answerOf_next, State.advance_halted, State.setV_halted, hs]; rfl

/-! ### The statement -/

/-- Settles O39: with a least pressed key the instruction is a register load of its number; with none it is no change. -/
theorem keyWaitTakesTheLeastKey : Obligations.KeyWaitTakesTheLeastKey := fun x s => by
  refine ⟨rfl, fun k hk hleast => ?_, fun h => exec_ldVxKey_of_no_key x (s.firstKey_eq_none_iff.mpr h),
    answerOf_exec_ldVxKey x⟩
  have hfirst : s.firstKey = some k := (s.firstKey_eq_some_iff k).mpr ⟨hk, hleast⟩
  refine ⟨_, exec_ldVxKey_of_pressed x hfirst, ?_, s.setV_advance_frame x _ 2⟩
  rw [State.getV_setV_advance, toNat_ofNat_key]

end Sys2Proof.Machine
end

section
/-! Decoding and encoding (30_encoding.md sections 2 to 6). One direction reads the fields of a format back; the other says
of every class what its second level answers, and from it follow the encoding, the list of illegal words and the opcode map. -/

namespace Sys2Proof

/-! ### The fields of the formats, for `simp` -/

@[simp] theorem classOf_formatA (c : Nibble) (nnn : Imm12) : classOf (formatA c nnn) = c := (formatA_fields c nnn).1
@[simp] theorem fieldNNN_formatA (c : Nibble) (nnn : Imm12) : fieldNNN (formatA c nnn) = nnn := (formatA_fields c nnn).2

@[simp] theorem classOf_formatXK (c : Nibble) (x : Reg) (nn : Byte) : classOf (formatXK c x nn) = c :=
  (formatXK_fields c x nn).1
@[simp] theorem fieldX_formatXK (c : Nibble) (x : Reg) (nn : Byte) : fieldX (formatXK c x nn) = x :=
  (formatXK_fields c x nn).2.1
@[simp] theorem fieldNN_formatXK (c : Nibble) (x : Reg) (nn : Byte) : fieldNN (formatXK c x nn) = nn :=
  (formatXK_fields c x nn).2.2

@[simp] theorem classOf_formatXYN (c : Nibble) (x y : Reg) (n : Nibble) : classOf (formatXYN c x y n) = c :=
  (formatXYN_fields c x y n).1
@[simp] theorem fieldX_formatXYN (c : Nibble) (x y : Reg) (n : Nibble) : fieldX (formatXYN c x y n) = x :=
  (formatXYN_fields c x y n).2.1
@[simp] theorem fieldY_formatXYN (c : Nibble) (x y : Reg) (n : Nibble) : fieldY (formatXYN c x y n) = y :=
  (formatXYN_fields c x y n).2.2.1
@[simp] theorem fieldN_formatXYN (c : Nibble) (x y : Reg) (n : Nibble) : fieldN (formatXYN c x y n) = n :=
  (formatXYN_fields c x y n).2.2.2

/-! ### Decoding an encoding -/

/-- Settles O2: the class of a format selects the first level, its literal digits the second, and the operands are fields. -/
theorem decodeOfEncodeIsTheInstruction : Obligations.DecodeOfEncodeIsTheInstruction := fun i hi => by
  cases i with
  | cls | ret | nop => decide
  | drw x y n =>
    have hn : n ≤ 15 := of_decide_eq_true hi
    have hmod : n % 16 = n := Nat.mod_eq_of_lt (by omega)
    simp [encode, decodeWord, hmod]
  | seReg | sneReg => simp [encode, decodeWord]
  | ldReg | or | and | xor | addReg | sub | shr | subn | shl => simp [encode, decodeWord, decodeClass8]
  | skp | sknp => simp [encode, decodeWord, decodeClassE]
  | ldVxDt | ldDtVx | ldStVx | ldVxKey | addI | ldF | ldB | storeRegs | loadRegs =>
    simp [encode, decodeWord, decodeClassF]
  | jp | call | seImm | sneImm | ldImm | addImm | ldI | jpV0 | rnd => simp [encode, decodeWord]

/-! ### Encoding what was decoded -/

/-- What a word's decoding has to be: an instruction the word encodes, for a word the spec does not list as illegal; or
the word itself, for one it does list. -/
def Decoded.IsMeaningOf (op : Word) : Decoded → Prop
  | .instr i => encode i = op ∧ i.wellFormed = true ∧ isIllegalWord op = false
  | .illegal w => w = op ∧ isIllegalWord op = true
  | .truncated => False

/-- The value a `match` on naturals has found, as a bit vector. -/
theorem eq_ofNat_of_toNat {w k : Nat} {b : BitVec w} (h : b.toNat = k) : b = BitVec.ofNat w k := by
  rw [← h, BitVec.ofNat_toNat, BitVec.setWidth_eq]

theorem formatA_of_class {op : Word} {c : Nibble} (hc : classOf op = c) : formatA c (fieldNNN op) = op :=
  hc ▸ eq_formatA op

theorem formatXK_of_class {op : Word} {c : Nibble} (hc : classOf op = c) : formatXK c (fieldX op) (fieldNN op) = op :=
  hc ▸ eq_formatXK op

theorem formatXK_of_fields {op : Word} {c : Nibble} {nn : Byte} (hc : classOf op = c) (hnn : fieldNN op = nn) :
    formatXK c (fieldX op) nn = op := hnn ▸ formatXK_of_class hc

theorem formatXYN_of_fields {op : Word} {c n : Nibble} (hc : classOf op = c) (hn : fieldN op = n) :
    formatXYN c (fieldX op) (fieldY op) n = op := hn ▸ hc ▸ eq_formatXYN op

theorem decodeClass0_isMeaningOf {op : Word} (hc : classOf op = 0x0) : (decodeClass0 op).IsMeaningOf op := by
  unfold decodeClass0
  split
  · next h => subst h; exact ⟨rfl, rfl, by decide⟩
  split
  · next h => subst h; exact ⟨rfl, rfl, by decide⟩
  split
  · next h => subst h; exact ⟨rfl, rfl, by decide⟩
  · next hcls hret hnop => exact ⟨rfl, by simpa [isIllegalWord, hc] using ⟨⟨hnop, hcls⟩, hret⟩⟩

theorem decodeClass8_isMeaningOf {op : Word} (hc : classOf op = 0x8) : (decodeClass8 op).IsMeaningOf op := by
  unfold decodeClass8
  dsimp only
  split
  case h_10 =>
    have hlt := (fieldN op).isLt
    simp only [imp_false] at *
    exact ⟨rfl, by simp [isIllegalWord, hc]; omega⟩
  all_goals next h =>
    exact ⟨formatXYN_of_fields hc (eq_ofNat_of_toNat h), rfl, by simp [isIllegalWord, hc, h]⟩

theorem decodeClassE_isMeaningOf {op : Word} (hc : classOf op = 0xE) : (decodeClassE op).IsMeaningOf op := by
  unfold decodeClassE
  split
  case h_3 => exact ⟨rfl, by simp [isIllegalWord, hc]; and_intros <;> assumption⟩
  all_goals next h =>
    exact ⟨formatXK_of_fields hc (eq_ofNat_of_toNat h), rfl, by simp [isIllegalWord, hc, h]⟩

theorem decodeClassF_isMeaningOf {op : Word} (hc : classOf op = 0xF) : (decodeClassF op).IsMeaningOf op := by
  unfold decodeClassF
  dsimp only
  split
  case h_10 => exact ⟨rfl, by simp [isIllegalWord, hc]; and_intros <;> assumption⟩
  all_goals next h =>
    exact ⟨formatXK_of_fields hc (eq_ofNat_of_toNat h), rfl, by simp [isIllegalWord, hc, h]⟩

/-- The decoder gives every word its meaning. -/
theorem decodeWord_isMeaningOf (op : Word) : (decodeWord op).IsMeaningOf op := by
  unfold decodeWord
  dsimp only
  split
  case h_1 h => exact decodeClass0_isMeaningOf (eq_ofNat_of_toNat h)
  case h_9 h => exact decodeClass8_isMeaningOf (eq_ofNat_of_toNat h)
  case h_15 h => exact decodeClassE_isMeaningOf (eq_ofNat_of_toNat h)
  case h_16 =>
    have hlt := (classOf op).isLt
    simp only [imp_false] at *
    exact decodeClassF_isMeaningOf (eq_ofNat_of_toNat (k := 15) (by omega))
  case h_14 h =>
    exact ⟨formatXYN_of_fields (eq_ofNat_of_toNat h) (eq_ofNat_of_toNat rfl),
      decide_eq_true (Nat.le_of_lt_succ (fieldN op).isLt), by simp [isIllegalWord, h]⟩
  case h_6 h | h_10 h =>
    split
    · next hn => exact ⟨formatXYN_of_fields (eq_ofNat_of_toNat h) hn, rfl, by simp [isIllegalWord, h, hn]⟩
    · next hn => exact ⟨rfl, by simpa [isIllegalWord, h] using hn⟩
  case h_2 h | h_3 h | h_11 h | h_12 h =>
    exact ⟨formatA_of_class (eq_ofNat_of_toNat h), rfl, by simp [isIllegalWord, h]⟩
  case h_4 h | h_5 h | h_7 h | h_8 h | h_13 h =>
    exact ⟨formatXK_of_class (eq_ofNat_of_toNat h), rfl, by simp [isIllegalWord, h]⟩

/-- What a decoding to an instruction says of the word. -/
theorem meaning_of_decodeWord_eq {op : Word} {i : Instr} (h : decodeWord op = .instr i) :
    encode i = op ∧ i.wellFormed = true ∧ isIllegalWord op = false := by
  have hm := decodeWord_isMeaningOf op
  rwa [h] at hm

/-- Whether a word decodes to an instruction is the spec's list's to say. -/
theorem decodeWord_of_isIllegalWord {op : Word} (h : isIllegalWord op = true) : decodeWord op = .illegal op := by
  have hm := decodeWord_isMeaningOf op
  cases hd : decodeWord op with
  | instr i => exact absurd h (by simp [(meaning_of_decodeWord_eq hd).2.2])
  | illegal w => rw [hd] at hm; rw [hm.1]
  | truncated => rw [hd] at hm; exact hm.elim

theorem exists_decodeWord_of_not_isIllegalWord {op : Word} (h : isIllegalWord op = false) :
    ∃ i, decodeWord op = .instr i := by
  have hm := decodeWord_isMeaningOf op
  cases hd : decodeWord op with
  | instr i => exact ⟨i, rfl⟩
  | illegal w => rw [hd] at hm; exact absurd hm.2 (by simp [h])
  | truncated => rw [hd] at hm; exact hm.elim

/-- Settles O3: the decoder gives every word its meaning. -/
theorem encodeOfDecodeIsTheWord : Obligations.EncodeOfDecodeIsTheWord := fun _ _ h =>
  have ⟨henc, hwf, _⟩ := meaning_of_decodeWord_eq h
  ⟨henc, hwf⟩

/-- Settles O4: a listed word has itself as its meaning, any other an instruction; the two exclude each other. -/
theorem illegalWordsAreTheListedOnes : Obligations.IllegalWordsAreTheListedOnes := fun op => by
  cases hl : isIllegalWord op with
  | true => simp [decodeWord_of_isIllegalWord hl]
  | false =>
    obtain ⟨i, hi⟩ := exists_decodeWord_of_not_isIllegalWord hl
    simp [hi]

/-- Settles O1: the words are closed. -/
theorem specWordsDecodeAsWritten : Obligations.SpecWordsDecodeAsWritten := by
  unfold Obligations.SpecWordsDecodeAsWritten
  decide

/-! ### The opcode map -/

/-- Two rows that select one word agree on the digits both fix. -/
theorem OpcodeRow.selects_overlap {r q : OpcodeRow} {op : Word} (hr : r.selects op) (hq : q.selects op) :
    r.value &&& q.mask = q.value &&& r.mask := by
  rw [← hr, ← hq, BitVec.and_assoc, BitVec.and_assoc, BitVec.and_comm r.mask]

theorem opcodeMap_disjoint : ∀ r ∈ opcodeMap, ∀ q ∈ opcodeMap, r.value &&& q.mask = q.value &&& r.mask → r = q := by
  decide

theorem classOf_and (a b : Word) : classOf (a &&& b) = classOf a &&& classOf b := BitVec.extractLsb'_and
theorem fieldN_and (a b : Word) : fieldN (a &&& b) = fieldN a &&& fieldN b := BitVec.extractLsb'_and
theorem fieldNN_and (a b : Word) : fieldNN (a &&& b) = fieldNN a &&& fieldNN b := BitVec.extractLsb'_and

/-- The list of illegal words looks at the class, then at the digits the class's second level looks at. -/
theorem isIllegalWord_congr {a b : Word} (hc : classOf a = classOf b) (h0 : classOf b ≠ 0)
    (hn : classOf b = 0x5 ∨ classOf b = 0x8 ∨ classOf b = 0x9 → fieldN a = fieldN b)
    (hnn : classOf b = 0xE ∨ classOf b = 0xF → fieldNN a = fieldNN b) : isIllegalWord a = isIllegalWord b := by
  unfold isIllegalWord
  rw [hc]
  split
  case h_1 h => exact absurd (eq_ofNat_of_toNat h) h0
  case h_2 h => rw [hn (.inl (eq_ofNat_of_toNat h))]
  case h_3 h => rw [hn (.inr (.inr (eq_ofNat_of_toNat h)))]
  case h_4 h => rw [hn (.inr (.inl (eq_ofNat_of_toNat h)))]
  case h_5 h => rw [hnn (.inl (eq_ofNat_of_toNat h))]
  case h_6 h => rw [hnn (.inr (eq_ofNat_of_toNat h))]
  case h_7 => rfl

/-- What the masks of the 35 rows fix: the class always, the digits of the second level where the class has one. -/
theorem opcodeMap_masks : ∀ r ∈ opcodeMap, isIllegalWord r.value = false ∧ classOf r.mask = 0xF ∧
    (classOf r.value = 0x0 → r.mask = 0xFFFF) ∧
    (classOf r.value = 0x5 ∨ classOf r.value = 0x8 ∨ classOf r.value = 0x9 → fieldN r.mask = 0xF) ∧
    (classOf r.value = 0xE ∨ classOf r.value = 0xF → fieldNN r.mask = 0xFF) := by
  decide

/-- No row of the map selects a listed word. -/
theorem isIllegalWord_of_selects {r : OpcodeRow} {op : Word} (hr : r ∈ opcodeMap) (hs : r.selects op) :
    isIllegalWord op = false := by
  obtain ⟨hlegal, hclass, hall, hn, hnn⟩ := opcodeMap_masks r hr
  by_cases h0 : classOf r.value = 0
  · have hop : op = r.value := by rw [← hs, hall h0]; exact (BitVec.and_allOnes (x := op)).symm
    rw [hop, hlegal]
  · rw [← hlegal]
    refine isIllegalWord_congr ?_ h0 (fun h => ?_) (fun h => ?_)
    · rw [← hs, classOf_and, hclass]; exact (BitVec.and_allOnes (x := classOf op)).symm
    · rw [← hs, fieldN_and, hn h]; exact (BitVec.and_allOnes (x := fieldN op)).symm
    · rw [← hs, fieldNN_and, hnn h]; exact (BitVec.and_allOnes (x := fieldNN op)).symm

/-- Every instruction's row is in the map and selects its encoding (30_encoding.md rule R96). -/
theorem row_selects_encode : ∀ i : Instr, Laws.RowMatch.Statement i
  | .cls => Laws.RowMatch.cls
  | .ret => Laws.RowMatch.ret
  | .nop => Laws.RowMatch.nop
  | .jp nnn => Laws.RowMatch.jp nnn
  | .call nnn => Laws.RowMatch.call nnn
  | .ldI nnn => Laws.RowMatch.ldI nnn
  | .jpV0 nnn => Laws.RowMatch.jpV0 nnn
  | .seImm x nn => Laws.RowMatch.seImm x nn
  | .sneImm x nn => Laws.RowMatch.sneImm x nn
  | .ldImm x nn => Laws.RowMatch.ldImm x nn
  | .addImm x nn => Laws.RowMatch.addImm x nn
  | .rnd x nn => Laws.RowMatch.rnd x nn
  | .seReg x y => Laws.RowMatch.seReg x y
  | .sneReg x y => Laws.RowMatch.sneReg x y
  | .ldReg x y => Laws.RowMatch.ldReg x y
  | .or x y => Laws.RowMatch.or x y
  | .and x y => Laws.RowMatch.and x y
  | .xor x y => Laws.RowMatch.xor x y
  | .addReg x y => Laws.RowMatch.addReg x y
  | .sub x y => Laws.RowMatch.sub x y
  | .shr x y => Laws.RowMatch.shr x y
  | .subn x y => Laws.RowMatch.subn x y
  | .shl x y => Laws.RowMatch.shl x y
  | .drw x y n => Laws.RowMatch.drw x y n
  | .skp x => Laws.RowMatch.skp x
  | .sknp x => Laws.RowMatch.sknp x
  | .ldVxDt x => Laws.RowMatch.ldVxDt x
  | .ldDtVx x => Laws.RowMatch.ldDtVx x
  | .ldStVx x => Laws.RowMatch.ldStVx x
  | .ldVxKey x => Laws.RowMatch.ldVxKey x
  | .addI x => Laws.RowMatch.addI x
  | .ldF x => Laws.RowMatch.ldF x
  | .ldB x => Laws.RowMatch.ldB x
  | .storeRegs x => Laws.RowMatch.storeRegs x
  | .loadRegs x => Laws.RowMatch.loadRegs x

/-- Settles O5: two rows that select one word agree where both masks look, which no two rows of the map do; an
instruction's row selects its encoding, the word; and a row selects no listed word. -/
theorem decodeFollowsTheOpcodeMap : Obligations.DecodeFollowsTheOpcodeMap := by
  refine ⟨fun r hr q hq op hrs hqs => opcodeMap_disjoint r hr q hq (OpcodeRow.selects_overlap hrs hqs),
    fun op i h => ?_, fun op ⟨r, hr, hs⟩ =>
      exists_decodeWord_of_not_isIllegalWord (isIllegalWord_of_selects hr hs)⟩
  exact (meaning_of_decodeWord_eq h).1 ▸ row_selects_encode i

end Sys2Proof
end

section
/-! Call, return and the computed jump (40_flow.md sections 2, 3 and 5). -/

namespace Sys2Proof.Machine

/-! ### What the instructions do -/

/-- The state a return from inside the stack's limits leaves. -/
theorem exec_ret_of_legal {s : State} (h0 : 0 < s.sp.toNat) (h : s.sp.toNat ≤ 15) :
    exec .ret s = .next ({ s with sp := s.sp - 1 }.setPc (s.stack[s.sp.toNat - 1] + 2)) := by
  have hne : s.sp ≠ 0 := fun e => by simp [e] at h0
  exact (if_neg hne).trans (dif_pos h)

theorem exec_ret_of_zero {s : State} (h : s.sp = 0) : exec .ret s = .fault (.stackUnderflow s.pc) := if_pos h

/-- A return that completes was inside the stack's limits. -/
theorem exec_ret_next {s t : State} (h : exec .ret s = .next t) :
    ∃ hsp : 0 < s.sp.toNat ∧ s.sp.toNat ≤ 15, t = { s with sp := s.sp - 1 }.setPc (s.stack[s.sp.toNat - 1] + 2) := by
  change execRet s = _ at h
  unfold execRet at h
  split at h
  · cases h
  split at h
  · next hne hle => exact ⟨⟨by bv_omega, hle⟩, by cases h; rfl⟩
  · cases h

/-- The state a call with room in the stack leaves. -/
theorem exec_call_of_lt {s : State} (nnn : Imm12) (h : s.sp.toNat < 15) :
    exec (.call nnn) s =
      .next ({ s with stack := s.stack.set s.sp.toNat s.pc, sp := s.sp + 1 }.setPc (immWord nnn)) := dif_pos h

theorem exec_call_of_ge {s : State} (nnn : Imm12) (h : ¬ s.sp.toNat < 15) :
    exec (.call nnn) s = .fault (.stackOverflow s.pc) := dif_neg h

/-- A call that completes had room in the stack. -/
theorem exec_call_next {s t : State} {nnn : Imm12} (h : exec (.call nnn) s = .next t) :
    ∃ hsp : s.sp.toNat < 15,
      t = { s with stack := s.stack.set s.sp.toNat s.pc, sp := s.sp + 1 }.setPc (immWord nnn) := by
  by_cases hsp : s.sp.toNat < 15
  · rw [exec_call_of_lt nnn hsp] at h
    exact ⟨hsp, by cases h; rfl⟩
  · rw [exec_call_of_ge nnn hsp] at h
    cases h

theorem exec_jpV0 (nnn : Imm12) (s : State) :
    exec (.jpV0 nnn) s = .next (s.setPc (immWord nnn + byteWord (s.getV V0))) := rfl

/-! ### The statements -/

/-- Settles O12: inside the limits the return pops; at 0 it faults. -/
theorem returnPopsTheStack : Obligations.ReturnPopsTheStack := fun s => by
  refine ⟨rfl, fun k hk hsp => ⟨_, exec_ret_of_legal (by omega) hsp, ?_, ?_, fun _ => rfl, fun _ => rfl, rfl⟩,
    exec_ret_of_zero⟩
  · show (s.sp - 1).toNat = k.val
    bv_omega
  · simp [hk]

/-- Settles O14: with room the call writes the entry `sp` names; at 15 it faults. -/
theorem callPushesItsAddress : Obligations.CallPushesItsAddress := fun nnn s => by
  refine ⟨rfl, fun k hk hlt => ⟨_, exec_call_of_lt nnn (hk ▸ hlt), ?_, fun j hj => ?_, ?_, toNat_immWord nnn,
    fun _ => rfl, fun _ => rfl, rfl⟩, fun h => exec_call_of_ge nnn (by omega)⟩
  · simp [hk]
  · have hne : k.val ≠ j.val := fun e => hj (Fin.ext e.symm)
    simp [hk, Vector.getElem_set_ne _ _ hne]
  · show (s.sp + 1).toNat = k.val + 1
    bv_omega

/-- Settles O15: the return reads the entry the call wrote, the one below the pointer the call left. -/
theorem returnResumesAfterTheCall : Obligations.ReturnResumesAfterTheCall := fun nnn s t u hcall hentry hptr => by
  obtain ⟨hsp, rfl⟩ := exec_call_next hcall
  have husp : u.sp = s.sp + 1 := hptr
  have huval : u.sp.toNat = s.sp.toNat + 1 := by bv_omega
  refine ⟨_, exec_ret_of_legal (by omega) (by omega), ?_, ?_⟩
  · have hread : u.stack[s.sp.toNat] = s.pc := by simpa using hentry ⟨s.sp.toNat, by omega⟩ rfl
    simp [huval, hread]
  · show u.sp - 1 = s.sp
    rw [husp, BitVec.add_sub_cancel]

/-- Settles O18: a 12-bit and an 8-bit number add without a wrap of 16 bits. -/
theorem computedJumpAddsV0 : Obligations.ComputedJumpAddsV0 := fun nnn s => by
  refine ⟨rfl, _, exec_jpV0 nnn s, ?_, s.setPc_frame _⟩
  have hnnn := nnn.isLt
  have hv := (s.getV V0).isLt
  show (immWord nnn + byteWord (s.getV V0)).toNat = _
  rw [BitVec.toNat_add, toNat_immWord, byteWord, BitVec.toNat_setWidth_of_le (by decide), Nat.mod_eq_of_lt (by omega)]

end Sys2Proof.Machine
end

section
/-! The instructions that write VF as a flag, and the random byte (41_alu.md sections 4 and 5). The order of the two writes
decides the forms with X or Y = 0xF (decision D3), so each law keeps it visible. -/

namespace Sys2Proof.Machine

/-! ### What the instructions do -/

theorem exec_addReg (x y : Reg) (s : State) :
    exec (.addReg x y) s =
      let s1 := s.setV x (s.getV x + s.getV y)
      .next ((s1.setV VF (postAddFlag (s1.getV x) (s1.getV y))).advance 2) := rfl

theorem exec_sub (x y : Reg) (s : State) :
    exec (.sub x y) s =
      let s1 := s.setV VF (noBorrowFlag (s.getV x) (s.getV y))
      .next ((s1.setV x (s1.getV x - s1.getV y)).advance 2) := rfl

theorem exec_subn (x y : Reg) (s : State) :
    exec (.subn x y) s =
      let s1 := s.setV VF (noBorrowFlag (s.getV y) (s.getV x))
      .next ((s1.setV x (s1.getV y - s1.getV x)).advance 2) := rfl

theorem exec_shr (x y : Reg) (s : State) :
    exec (.shr x y) s =
      let s1 := s.setV VF (lowBitFlag (s.getV x))
      .next ((s1.setV x (s1.getV x >>> 1)).advance 2) := rfl

theorem exec_shl (x y : Reg) (s : State) :
    exec (.shl x y) s =
      let s1 := s.setV VF (highBitFlag (s.getV x))
      .next ((s1.setV x (s1.getV x <<< 1)).advance 2) := rfl

theorem exec_rnd (x : Reg) (nn : Byte) (s : State) :
    exec (.rnd x nn) s = .next ((s.useDraw.setV x (s.drawnByte &&& nn)).advance 2) := rfl

/-! ### Two register writes and an advance -/

/-- A register other than the two written. -/
theorem State.getV_setV_setV_advance_ne (s : State) {p q r : Reg} (a b : Byte) (n : Nat) (hp : r ≠ p) (hq : r ≠ q) :
    (((s.setV p a).setV q b).advance n).getV r = s.getV r := by
  rw [State.getV_advance, State.getV_setV_ne _ b hq, State.getV_setV_ne _ a hp]

/-- The first register written, when the second write is to another. -/
theorem State.getV_setV_setV_advance_fst (s : State) {p q : Reg} (a b : Byte) (n : Nat) (h : p ≠ q) :
    (((s.setV p a).setV q b).advance n).getV p = a := by
  rw [State.getV_advance, State.getV_setV_ne _ b h, State.getV_setV_self]

/-- What a flag written before the result leaves: the flag, unless X is VF itself, and the frame. -/
theorem State.setV_flag_setV_advance_frame (s : State) (f : Byte) (x : Reg) (b : Byte) :
    let t := ((s.setV VF f).setV x b).advance 2
    t.pc = s.pc + 2 ∧ (∀ r, r ≠ x → r ≠ VF → t.getV r = s.getV r) ∧
      (∀ a, Memory.read t.mem a = Memory.read s.mem a) ∧ { t with pc := s.pc, v := s.v } = s :=
  ⟨rfl, fun _ hx hf => s.getV_setV_setV_advance_ne f b 2 hf hx, fun _ => rfl, rfl⟩

/-! ### The flags and results as arithmetic on naturals -/

theorem flagByte_decide (p : Prop) [Decidable p] : flagByte (decide p) = if p then 1 else 0 := by
  simp [flagByte]

theorem toNat_sub_byte (a b : Byte) : (a - b).toNat = (a.toNat + 256 - b.toNat) % 256 := by
  bv_omega

theorem toNat_lowBitFlag (b : Byte) : (lowBitFlag b).toNat = b.toNat % 2 :=
  (BitVec.toNat_and b 1).trans (Nat.and_one_is_mod _)

theorem toNat_highBitFlag (b : Byte) : (highBitFlag b).toNat = b.toNat / 128 := by
  rw [highBitFlag, BitVec.toNat_ushiftRight, Nat.shiftRight_eq_div_pow]

theorem toNat_shiftRight_one (b : Byte) : (b >>> 1).toNat = b.toNat / 2 := by
  rw [BitVec.toNat_ushiftRight, Nat.shiftRight_eq_div_pow]

theorem toNat_shiftLeft_one (b : Byte) : (b <<< 1).toNat = b.toNat * 2 % 256 := by
  rw [BitVec.toNat_shiftLeft, Nat.shiftLeft_eq]

/-! ### The statements -/

/-- Settles O22: the sum is written first, so the flag test reads it where Y = X, and overwrites it where X = 0xF. -/
theorem addSetsThePostAddFlag : Obligations.AddSetsThePostAddFlag := fun x y s => by
  have hsum : (s.getV x + s.getV y).toNat = ((s.getV x).toNat + (s.getV y).toNat) % 256 := BitVec.toNat_add _ _
  refine ⟨rfl, _, exec_addReg x y s, fun hx => ?_, ?_, rfl,
    fun r hx hf => s.getV_setV_setV_advance_ne _ _ 2 hx hf, fun _ => rfl, rfl⟩
  · rw [State.getV_setV_setV_advance_fst _ _ _ _ hx, hsum]
  · rw [State.getV_setV_advance, postAddFlag, flagByte_decide, State.getV_setV_self, State.getV_setV,
      apply_ite BitVec.toNat, hsum]

/-- Settles O23: the flag is written first, so the difference reads it where X or Y = 0xF. -/
theorem subtractSetsNoBorrowFirst : Obligations.SubtractSetsNoBorrowFirst := fun x y s => by
  refine ⟨rfl, _, noBorrowFlag (s.getV x) (s.getV y), rfl, exec_sub x y s, ?_,
    fun hx => s.getV_setV_setV_advance_fst _ _ 2 hx.symm, s.setV_flag_setV_advance_frame _ x _⟩
  rw [State.getV_setV_advance, toNat_sub_byte, State.getV_setV, State.getV_setV]

/-- Settles O24: as O23, with X and Y in the other order. -/
theorem reverseSubtractSetsNoBorrowFirst : Obligations.ReverseSubtractSetsNoBorrowFirst := fun x y s => by
  refine ⟨rfl, _, noBorrowFlag (s.getV y) (s.getV x), rfl, exec_subn x y s, ?_,
    fun hx => s.getV_setV_setV_advance_fst _ _ 2 hx.symm, s.setV_flag_setV_advance_frame _ x _⟩
  rw [State.getV_setV_advance, toNat_sub_byte, State.getV_setV, State.getV_setV]

/-- Settles O25: X = 0xF shifts the flag itself, a bit shifted out to 0. -/
theorem shiftRightSavesTheLowBit : Obligations.ShiftRightSavesTheLowBit := fun x y s => by
  refine ⟨rfl, _, exec_shr x y s, fun hx => ?_, fun hx => ?_, fun hx => ?_, s.setV_flag_setV_advance_frame _ x _⟩
  · rw [State.getV_setV_advance, State.getV_setV_ne _ _ hx, toNat_shiftRight_one]
  · rw [State.getV_setV_setV_advance_fst _ _ _ _ hx.symm, toNat_lowBitFlag]
  · subst hx
    refine BitVec.eq_of_toNat_eq ?_
    rw [State.getV_setV_advance, State.getV_setV_self, toNat_shiftRight_one, toNat_lowBitFlag]
    exact Nat.div_eq_of_lt (Nat.mod_lt _ (by decide))

/-- Settles O26: X = 0xF shifts the flag itself, which doubles it. -/
theorem shiftLeftSavesTheHighBit : Obligations.ShiftLeftSavesTheHighBit := fun x y s => by
  refine ⟨rfl, _, exec_shl x y s, fun hx => ?_, fun hx => ?_, fun hx => ?_, s.setV_flag_setV_advance_frame _ x _⟩
  · rw [State.getV_setV_advance, State.getV_setV_ne _ _ hx, toNat_shiftLeft_one]
  · rw [State.getV_setV_setV_advance_fst _ _ _ _ hx.symm, toNat_highBitFlag]
  · subst hx
    rw [State.getV_setV_advance, State.getV_setV_self, toNat_shiftLeft_one, toNat_highBitFlag]
    have hlt := (s.getV VF).isLt
    omega

/-- Settles O27: the byte written is the conjunction, bit by bit, of NN and the byte this draw answers. -/
theorem randomByteIsMasked : Obligations.RandomByteIsMasked := fun x nn s => by
  refine ⟨rfl, _, exec_rnd x nn s, fun b => ?_, rfl, rfl, fun r hr => ?_, fun _ => rfl, rfl⟩
  · rw [State.getV_setV_advance, BitVec.getLsbD_and, State.drawnByte]
  · rw [State.getV_advance, State.getV_setV_ne _ _ hr, State.getV_useDraw]

end Sys2Proof.Machine
end

section
/-! The index register and the memory transfers (42_index_memory.md). -/

namespace Sys2Proof.Machine

/-! ### What the instructions do -/

theorem exec_ldI (nnn : Imm12) (s : State) : exec (.ldI nnn) s = .next ((s.setI (immWord nnn)).advance 2) := rfl

theorem exec_ldF (x : Reg) (s : State) : exec (.ldF x) s = .next ((s.setI (glyphAddress (s.getV x))).advance 2) := rfl

theorem exec_addI (x : Reg) (s : State) :
    exec (.addI x) s =
      let s1 := s.setV VF (indexFlag s.i (s.getV x))
      .next ((s1.setI (s1.i + byteWord (s1.getV x))).advance 2) := rfl

/-- The state FX33 leaves when it completes. -/
def State.afterLdB (s : State) (x : Reg) : State :=
  (s.setMem (Memory.writeBytes s.mem s.i.toNat (decimalDigits (s.getV x)))).advance 2

/-- The state FX55 leaves when it completes. -/
def State.afterStoreRegs (s : State) (x : Reg) : State :=
  ((s.setMem (Memory.writeBytes s.mem s.i.toNat (s.regBytes x))).setI (s.i + BitVec.ofNat 16 (blockLength x))).advance 2

/-- The state FX65 leaves when it completes. -/
def State.afterLoadRegs (s : State) (x : Reg) : State :=
  ({ s with v := loadBlock s.mem s.i.toNat s.v (blockLength x) }.setI
    (s.i + BitVec.ofNat 16 (blockLength x))).advance 2

theorem exec_ldB (x : Reg) (s : State) : exec (.ldB x) s = checkRange s.i.toNat 3 (.next (s.afterLdB x)) := rfl

theorem exec_storeRegs (x : Reg) (s : State) :
    exec (.storeRegs x) s = checkRange s.i.toNat (blockLength x) (.next (s.afterStoreRegs x)) := rfl

theorem exec_loadRegs (x : Reg) (s : State) :
    exec (.loadRegs x) s = checkRange s.i.toNat (blockLength x) (.next (s.afterLoadRegs x)) := rfl

/-! ### A checked range of at least one byte -/

/-- The check passes when the last byte lies at or below 0xFFF. -/
theorem checkRange_succ_of_le {base n : Nat} (k : Host.Outcome State Fault Refusal) (h : base + n ≤ 0xFFF) :
    checkRange base (n + 1) k = k := checkRange_of_le k (.inr (by show _ ≤ 0xFFF + 1; omega))

/-- The check faults when the last byte lies above 0xFFF. -/
theorem checkRange_succ_of_gt {base n : Nat} (k : Host.Outcome State Fault Refusal) (h : 0xFFF < base + n) :
    checkRange base (n + 1) k = .fault (.memoryOutOfRange (max base 0x1000)) :=
  checkRange_of_gt k n.succ_pos (by show 0xFFF + 1 < _; omega)

/-- A checked next state: the range was good and it is the one asked for. -/
theorem checkRange_succ_next {base n : Nat} {t u : State} (h : checkRange base (n + 1) (.next u) = .next t) :
    base + n ≤ 0xFFF ∧ t = u := by
  obtain ⟨hr, hk⟩ := checkRange_next h
  have hr' : base + (n + 1) ≤ 0xFFF + 1 := hr.resolve_left n.succ_ne_zero
  exact ⟨by omega, by cases hk; rfl⟩

/-! ### Words and bytes as naturals -/

theorem toNat_byteWord (b : Byte) : (byteWord b).toNat = b.toNat := BitVec.toNat_setWidth_of_le (by decide)

theorem toNat_glyphAddress (b : Byte) : (glyphAddress b).toNat = b.toNat * 5 := by
  have hlt := b.isLt
  exact (BitVec.toNat_ofNat _ _).trans (Nat.mod_eq_of_lt (show b.toNat * 5 < 65536 by omega))

/-- I after a block of X + 1 bytes. -/
theorem toNat_add_blockLength (i : Word) (x : Reg) :
    (i + BitVec.ofNat 16 (blockLength x)).toNat = (i.toNat + x.val + 1) % 65536 := by
  have hx : blockLength x < 65536 := by rw [blockLength]; omega
  rw [BitVec.toNat_add, BitVec.toNat_ofNat, Nat.mod_eq_of_lt hx, blockLength, Nat.add_assoc]

/-- A decimal digit fits in a byte. -/
theorem toNat_ofNat_byte {n : Nat} (h : n < 256) : (BitVec.ofNat 8 n).toNat = n := by
  rw [BitVec.toNat_ofNat, Nat.mod_eq_of_lt h]

/-! ### What the transfers leave in memory and in the registers -/

/-- FX33's digit number `j`. -/
theorem State.read_afterLdB (s : State) (x : Reg) (h : s.i.toNat + 2 ≤ 0xFFF) {j : Nat}
    (hj : j < (decimalDigits (s.getV x)).length) :
    Memory.read (s.afterLdB x).mem (s.i.toNat + j) = (decimalDigits (s.getV x))[j] :=
  Memory.read_writeBytes_inside s.mem _ j _ hj (by show _ + 3 ≤ 0xFFF + 1; omega)

theorem State.read_afterLdB_outside (s : State) (x : Reg) {a : Nat} (h : a < s.i.toNat ∨ s.i.toNat + 3 ≤ a) :
    Memory.read (s.afterLdB x).mem a = Memory.read s.mem a := Memory.read_writeBytes_outside s.mem _ a _ h

/-- FX55 puts V[k] at I + k. -/
theorem State.read_afterStoreRegs (s : State) {x k : Reg} (h : s.i.toNat + x.val ≤ 0xFFF) (hk : k ≤ x) :
    Memory.read (s.afterStoreRegs x).mem (s.i.toNat + k.val) = s.getV k := by
  have hlen := s.length_regBytes x
  rw [blockLength] at hlen
  rw [← s.getElem_regBytes x k hk]
  exact Memory.read_writeBytes_inside s.mem _ k.val _ _ (by show _ ≤ 0xFFF + 1; omega)

theorem State.read_afterStoreRegs_outside (s : State) (x : Reg) {a : Nat}
    (h : a < s.i.toNat ∨ s.i.toNat + blockLength x ≤ a) :
    Memory.read (s.afterStoreRegs x).mem a = Memory.read s.mem a :=
  Memory.read_writeBytes_outside s.mem _ a _ (by rwa [s.length_regBytes x])

/-- FX65 loads the registers up to X and keeps those above. -/
theorem State.getV_afterLoadRegs (s : State) (x k : Reg) :
    (s.afterLoadRegs x).getV k = if k ≤ x then Memory.read s.mem (s.i.toNat + k.val) else s.getV k := by
  have hiff : k.val < blockLength x ↔ k ≤ x := Nat.lt_succ_iff
  exact (getElem_loadBlock s.mem s.i.toNat s.v (blockLength x) k).trans (if_congr hiff rfl rfl)

/-! ### The statements -/

/-- Settles O28: NNN is widened without a change of value, and 255 * 5 fits in I. -/
theorem indexLoadsSetI : Obligations.IndexLoadsSetI := fun nnn x s =>
  ⟨rfl, rfl, ⟨_, exec_ldI nnn s, toNat_immWord nnn, rfl, fun _ => rfl, fun _ => rfl, rfl⟩,
    ⟨_, exec_ldF x s, toNat_glyphAddress (s.getV x), rfl, fun _ => rfl, fun _ => rfl, rfl⟩⟩

/-- Settles O29: the flag is written first, so the sum reads it where X = 0xF. -/
theorem addToIndexReportsRange : Obligations.AddToIndexReportsRange := fun x s => by
  refine ⟨rfl, _, indexFlag s.i (s.getV x), flagByte_decide _, exec_addI x s, ?_, ?_, rfl, fun r hr => ?_,
    fun _ => rfl, rfl⟩
  · rw [State.getV_advance, State.getV_setI, State.getV_setV_self]
  · rw [State.advance_i, State.setI_i, BitVec.toNat_add, toNat_byteWord, State.getV_setV, State.setV_i]
  · rw [State.getV_advance, State.getV_setI, State.getV_setV_ne _ _ hr]

/-- Settles O30: the three bytes are `decimalDigits` of V[X], in order. -/
theorem bcdStoresThreeDigits : Obligations.BcdStoresThreeDigits := fun x s => by
  have hv := (s.getV x).isLt
  refine ⟨rfl, fun h => ⟨_, (exec_ldB x s).trans (checkRange_succ_of_le _ h), ?_, ?_, ?_,
    fun a ha => s.read_afterLdB_outside x ha, rfl, fun _ => rfl, rfl⟩,
    fun h => (exec_ldB x s).trans (checkRange_succ_of_gt _ h)⟩
  · exact (congrArg _ (s.read_afterLdB x h (j := 0) (show 0 < 3 by decide))).trans (toNat_ofNat_byte (by omega))
  · exact (congrArg _ (s.read_afterLdB x h (j := 1) (show 1 < 3 by decide))).trans (toNat_ofNat_byte (by omega))
  · exact (congrArg _ (s.read_afterLdB x h (j := 2) (show 2 < 3 by decide))).trans (toNat_ofNat_byte (by omega))

/-- Settles O31: byte number k of the block is V[k]. -/
theorem storeRegistersMovesIndex : Obligations.StoreRegistersMovesIndex := fun x s =>
  ⟨rfl, fun h => ⟨_, (exec_storeRegs x s).trans (checkRange_succ_of_le _ h),
    fun _ hk => s.read_afterStoreRegs h hk,
    fun _ ha => s.read_afterStoreRegs_outside x (ha.imp_right Nat.succ_le_of_lt),
    toNat_add_blockLength s.i x, rfl, fun _ => rfl, rfl⟩,
    fun h => (exec_storeRegs x s).trans (checkRange_succ_of_gt _ h)⟩

/-- Settles O32: register k is byte number k of the block. -/
theorem loadRegistersMovesIndex : Obligations.LoadRegistersMovesIndex := fun x s =>
  ⟨rfl, fun h => ⟨_, (exec_loadRegs x s).trans (checkRange_succ_of_le _ h),
    fun k hk => (s.getV_afterLoadRegs x k).trans (if_pos hk),
    fun k hk => (s.getV_afterLoadRegs x k).trans (if_neg (not_le.mpr hk)), fun _ => rfl,
    toNat_add_blockLength s.i x, rfl, rfl⟩,
    fun h => (exec_loadRegs x s).trans (checkRange_succ_of_gt _ h)⟩

/-- Settles O33: the load reads from the range the store wrote, which is in bounds because the store completed. -/
theorem loadUndoesStore : Obligations.LoadUndoesStore := fun x s t u hstore hmem hi => by
  rw [exec_storeRegs] at hstore
  obtain ⟨hrange, rfl⟩ := checkRange_succ_next hstore
  refine ⟨_, (exec_loadRegs x u).trans (checkRange_succ_of_le _ (hi ▸ hrange)), fun k hk => ?_, fun k hk => ?_, ?_⟩
  · rw [State.getV_afterLoadRegs, if_pos hk, hmem, hi, s.read_afterStoreRegs hrange hk]
  · rw [State.getV_afterLoadRegs, if_neg (not_le.mpr hk)]
  · show u.i + BitVec.ofNat 16 (blockLength x) = s.i + BitVec.ofNat 16 (blockLength x)
    rw [hi]

end Sys2Proof.Machine
end

section
/-! Drawing a sprite (43_display.md section 3): the cells and the collision of the whole instruction, from the laws of the
framebuffer engine. -/

namespace Sys2Proof.Machine

/-! ### What the instruction does -/

/-- The framebuffer and the collision that DXYN's rows leave. -/
def State.drawn (s : State) (x y : Reg) (n : Nat) : Framebuffer × Bool :=
  drawSprite (originX (s.getV x)) (originY (s.getV y)) (Memory.readBytes s.mem s.i.toNat n) (s.fb, false)

/-- The state DXYN leaves when it completes. -/
def State.afterDrw (s : State) (x y : Reg) (n : Nat) : State :=
  { (s.setV VF 0).setV VF (flagByte (s.drawn x y n).2) with fb := (s.drawn x y n).1, dirty := true }.advance 2

theorem exec_drw (x y : Reg) (n : Nat) (s : State) :
    exec (.drw x y n) s = checkRange s.i.toNat n (.next (s.afterDrw x y n)) := rfl

/-- DXYN completes when its N bytes lie in memory, and N = 0 needs none. -/
theorem exec_drw_of_le {s : State} (x y : Reg) {n : Nat} (h : n = 0 ∨ s.i.toNat + (n - 1) ≤ 0xFFF) :
    exec (.drw x y n) s = .next (s.afterDrw x y n) :=
  (exec_drw x y n s).trans (checkRange_of_le _ (by show n = 0 ∨ s.i.toNat + n ≤ 0xFFF + 1; omega))

theorem exec_drw_of_gt {s : State} (x y : Reg) {n : Nat} (h0 : 0 < n) (h : 0xFFF < s.i.toNat + (n - 1)) :
    exec (.drw x y n) s = .fault (.memoryOutOfRange (max s.i.toNat 0x1000)) :=
  (exec_drw x y n s).trans (checkRange_of_gt _ h0 (by show 0xFFF + 1 < s.i.toNat + n; omega))

/-- A draw that completes had its bytes in memory. -/
theorem exec_drw_next {s t : State} {x y : Reg} {n : Nat} (h : exec (.drw x y n) s = .next t) :
    (n = 0 ∨ s.i.toNat + (n - 1) ≤ 0xFFF) ∧ t = s.afterDrw x y n := by
  rw [exec_drw] at h
  obtain ⟨hr, hk⟩ := checkRange_next h
  have hr' : n = 0 ∨ s.i.toNat + n ≤ 0xFFF + 1 := hr
  exact ⟨by omega, by cases hk; rfl⟩

/-! ### The cells and the collision -/

theorem Memory.getD_readBytes (m : Memory) (a : Nat) {n j : Nat} (h : j < n) :
    (Memory.readBytes m a n).getD j 0 = Memory.read m (a + j) := by
  have hlen : j < (Memory.readBytes m a n).length := by rwa [Memory.length_readBytes]
  rw [List.getD_eq_getElem _ _ hlen, Memory.getElem_readBytes]

/-- `spriteBit` is the bit of the row byte read for the cell's row. -/
theorem spriteBit_eq_getD_readBytes (m : Memory) (base x0 y0 n : Nat) (cx : Fin 64) (cy : Fin 32) :
    spriteBit m base x0 y0 n cx cy =
      (decide (x0 ≤ cx.val ∧ cx.val < x0 + 8 ∧ y0 ≤ cy.val ∧ cy.val < y0 + n) &&
        ((Memory.readBytes m base n).getD (cy.val - y0) 0).getLsbD (7 - (cx.val - x0))) := by
  unfold spriteBit
  by_cases hbox : x0 ≤ cx.val ∧ cx.val < x0 + 8 ∧ y0 ≤ cy.val ∧ cy.val < y0 + n
  · rw [Memory.getD_readBytes m base (by omega)]
  · rw [decide_eq_false hbox, Bool.false_and, Bool.false_and]

/-- A draw toggles the cells under the sprite's set bits and no other. -/
theorem State.cellAt_drawn (s : State) (x y : Reg) (n : Nat) (cx : Fin 64) (cy : Fin 32) :
    cellAt (s.drawn x y n).1 cx cy = (cellAt s.fb cx cy ^^
      spriteBit s.mem s.i.toNat ((s.getV x).toNat % 64) ((s.getV y).toNat % 32) n cx cy) := by
  rw [State.drawn, drawSprite_cell, Memory.length_readBytes, spriteBit_eq_getD_readBytes]
  rfl

/-- A lit cell is erased exactly under a set bit. -/
theorem State.erased_iff (s : State) (x y : Reg) (n : Nat) (cx : Fin 64) (cy : Fin 32) :
    (cellAt s.fb cx cy = true ∧ cellAt (s.drawn x y n).1 cx cy = false) ↔
      spriteBit s.mem s.i.toNat (originX (s.getV x)) (originY (s.getV y)) n cx cy = true ∧
        cellAt s.fb cx cy = true := by
  rw [State.cellAt_drawn, and_comm, and_congr_left_iff]
  intro hlit
  rw [hlit, Bool.true_xor, Bool.not_eq_false']
  rfl

/-- A draw collides when it erases a lit cell. -/
theorem State.drawn_collision (s : State) (x y : Reg) (n : Nat) :
    (s.drawn x y n).2 = true ↔
      ∃ (cx : Fin 64) (cy : Fin 32), cellAt s.fb cx cy = true ∧ cellAt (s.drawn x y n).1 cx cy = false := by
  simp only [State.erased_iff, spriteBit_eq_getD_readBytes, Bool.and_eq_true, decide_eq_true_eq]
  rw [State.drawn, drawSprite_collision, Memory.length_readBytes]
  simp [and_assoc]

@[simp] theorem State.afterDrw_fb (s : State) (x y : Reg) (n : Nat) : (s.afterDrw x y n).fb = (s.drawn x y n).1 := rfl

theorem State.getV_VF_afterDrw (s : State) (x y : Reg) (n : Nat) :
    (s.afterDrw x y n).getV VF = flagByte (s.drawn x y n).2 := State.getV_setV_self _ VF _

theorem State.getV_afterDrw_ne (s : State) (x y : Reg) (n : Nat) {r : Reg} (h : r ≠ VF) :
    (s.afterDrw x y n).getV r = s.getV r :=
  (State.getV_setV_ne _ _ h).trans (State.getV_setV_ne s 0 h)

/-! ### The statements -/

/-- Settles O35: cell by cell the draw is an exclusive or with the sprite's bits, and the flag is its collision. -/
theorem drawTogglesTheSpriteCells : Obligations.DrawTogglesTheSpriteCells := fun x y n s => by
  refine ⟨rfl, fun h => ⟨_, exec_drw_of_le x y h, s.cellAt_drawn x y n, fun herased => ?_, fun hkept => ?_, rfl, rfl,
    fun r hr => s.getV_afterDrw_ne x y n hr, fun _ => rfl, rfl⟩, exec_drw_of_gt x y⟩
  · rw [State.getV_VF_afterDrw, (s.drawn_collision x y n).mpr herased]
    rfl
  · have hnone : (s.drawn x y n).2 = false := by
      by_contra hc
      obtain ⟨cx, cy, hlit, herased⟩ := (s.drawn_collision x y n).mp (by simpa using hc)
      exact absurd (hkept cx cy hlit) (by simpa using herased)
    rw [State.getV_VF_afterDrw, hnone]
    rfl

/-- Settles O36: the second draw takes the exclusive or with the same bits, since it finds the same coordinates, the same I
and the same memory. -/
theorem drawingTwiceRestores : Obligations.DrawingTwiceRestores := fun x y n s t hdraw hx hy => by
  obtain ⟨hrange, rfl⟩ := exec_drw_next hdraw
  refine ⟨_, exec_drw_of_le x y hrange, framebuffer_ext fun cx cy => ?_⟩
  rw [State.afterDrw_fb, State.cellAt_drawn, hx, hy, State.afterDrw_fb, State.cellAt_drawn, Bool.xor_assoc]
  exact (congrArg _ (Bool.xor_self _)).trans (Bool.xor_false _)

end Sys2Proof.Machine
end

section
/-! The timer access instructions and the key skips (44_timer_key_instr.md). -/

namespace Sys2Proof.Machine

/-! ### What the instructions do -/

theorem exec_ldVxDt (x : Reg) (s : State) : exec (.ldVxDt x) s = .next ((s.setV x s.dt).advance 2) := rfl

theorem exec_ldDtVx (x : Reg) (s : State) : exec (.ldDtVx x) s = .next ({ s with dt := s.getV x }.advance 2) := rfl

theorem exec_ldStVx (x : Reg) (s : State) : exec (.ldStVx x) s = .next ({ s with st := s.getV x }.advance 2) := rfl

/-- A register that holds a key's number names that key. -/
theorem State.keyAt_of_eq (s : State) {b : Byte} {k : Key} (h : b.toNat = k.val) : s.keyAt b = some s.key[k] := by
  rw [State.keyAt, h]
  exact Vector.getElem?_eq_getElem k.isLt

theorem State.keyAt_of_gt (s : State) {b : Byte} (h : 15 < b.toNat) : s.keyAt b = none :=
  Vector.getElem?_eq_none h

theorem exec_skp_of_key {s : State} {x : Reg} {k : Key} (h : (s.getV x).toNat = k.val) :
    exec (.skp x) s = .next (s.skipIf s.key[k]) := by
  simp only [exec, execSkp, s.keyAt_of_eq h]

theorem exec_sknp_of_key {s : State} {x : Reg} {k : Key} (h : (s.getV x).toNat = k.val) :
    exec (.sknp x) s = .next (s.skipIf (!s.key[k])) := by
  simp only [exec, execSknp, s.keyAt_of_eq h]

theorem exec_skp_of_gt {s : State} {x : Reg} (h : 15 < (s.getV x).toNat) :
    exec (.skp x) s = .fault (.keyIndexOutOfRange (s.getV x)) := by
  simp only [exec, execSkp, s.keyAt_of_gt h, raise]

theorem exec_sknp_of_gt {s : State} {x : Reg} (h : 15 < (s.getV x).toNat) :
    exec (.sknp x) s = .fault (.keyIndexOutOfRange (s.getV x)) := by
  simp only [exec, execSknp, s.keyAt_of_gt h, raise]

/-! ### The statements -/

/-- Settles O37: each instruction copies one counter. -/
theorem timerInstructionsMoveOneCounter : Obligations.TimerInstructionsMoveOneCounter := fun x s =>
  ⟨rfl, rfl, rfl, ⟨_, exec_ldVxDt x s, s.getV_setV_advance x s.dt 2, s.setV_advance_frame x s.dt 2⟩,
    ⟨_, exec_ldDtVx x s, rfl, rfl, fun _ => rfl, fun _ => rfl, rfl⟩,
    ⟨_, exec_ldStVx x s, rfl, rfl, fun _ => rfl, fun _ => rfl, rfl⟩⟩

/-- Settles O38: both instructions end in `skipIf` on the flag of the key V[X] names, if it names one. -/
theorem keySkipsTestTheFlag : Obligations.KeySkipsTestTheFlag := fun x s => by
  refine ⟨rfl, rfl, fun k hk => ⟨⟨_, exec_skp_of_key hk, ?_, s.setPc_frame _⟩,
    ⟨_, exec_sknp_of_key hk, ?_, s.setPc_frame _⟩⟩, fun h => ⟨exec_skp_of_gt h, exec_sknp_of_gt h⟩⟩
  · rw [State.skipIf_pc]
    cases s.key[k] <;> rfl
  · rw [State.skipIf_pc]
    cases s.key[k] <;> rfl

end Sys2Proof.Machine
end

section
/-! What every instruction keeps: one law of all 35, said once by cases on the instruction, from which the statements about
the whole instruction set and the invariant of every step are read off. -/

namespace Sys2Proof.Machine

/-! ### Instructions that can stop: what a completed one was -/

/-- A key skip that completes ends in `skipIf`. -/
theorem exec_skp_next {s t : State} {x : Reg} (h : exec (.skp x) s = .next t) :
    ∃ c, t = s.skipIf c := by
  by_cases hx : 15 < (s.getV x).toNat
  · rw [exec_skp_of_gt hx] at h
    cases h
  · rw [exec_skp_of_key (k := ⟨(s.getV x).toNat, by omega⟩) rfl] at h
    exact ⟨_, by cases h; rfl⟩

theorem exec_sknp_next {s t : State} {x : Reg} (h : exec (.sknp x) s = .next t) :
    ∃ c, t = s.skipIf c := by
  by_cases hx : 15 < (s.getV x).toNat
  · rw [exec_sknp_of_gt hx] at h
    cases h
  · rw [exec_sknp_of_key (k := ⟨(s.getV x).toNat, by omega⟩) rfl] at h
    exact ⟨_, by cases h; rfl⟩

/-- FX0A waits when no key is pressed, else loads a register. -/
theorem exec_ldVxKey_next {s t : State} {x : Reg} (h : exec (.ldVxKey x) s = .next t) :
    ((∀ k : Key, s.key[k] = false) ∧ t = s) ∨ ∃ b, t = (s.setV x b).advance 2 := by
  cases hk : s.firstKey with
  | none =>
    rw [exec_ldVxKey_of_no_key x hk] at h
    exact .inl ⟨s.firstKey_eq_none_iff.mp hk, by cases h; rfl⟩
  | some k =>
    rw [exec_ldVxKey_of_pressed x hk] at h
    exact .inr ⟨_, by cases h; rfl⟩

/-! ### The law -/

/-- The law of `pc` (40_flow.md rule R120): on by 2, by 4 for a skip, or a wait with no key pressed. -/
def PcLaw (i : Instr) (s t : State) : Prop :=
  t.pc = s.pc + 2 ∨ (isSkip i = true ∧ t.pc = s.pc + 4) ∨
    ((∃ x, i = .ldVxKey x) ∧ (∀ k : Key, s.key[k] = false) ∧ t = s)

/-- What the instruction `i`, completed, keeps between the state `s` before it and the state `t` after it. -/
structure Keeps (i : Instr) (s t : State) : Prop where
  agents : { t with v := s.v, i := s.i, pc := s.pc, stack := s.stack, sp := s.sp, dt := s.dt, st := s.st, mem := s.mem,
                    fb := s.fb, dirty := s.dirty, draws := s.draws } = s
  regs : ∀ r, isDestination r i = false → (r ≠ VF ∨ writesFlag i = false) → t.getV r = s.getV r
  pc : setsPc i = false → PcLaw i s t
  display : writesFramebuffer i = false → t.fb = s.fb ∧ t.dirty = s.dirty
  bytes : ∀ a, a < s.i.toNat ∨ s.i.toNat + storedBytes i ≤ a → Memory.read t.mem a = Memory.read s.mem a
  mem_wf : Memory.wf s.mem → Memory.wf t.mem
  sp_legal : s.sp.toNat ≤ 15 → t.sp.toNat ≤ 15

theorem PcLaw.skipIf {i : Instr} (hi : isSkip i = true) (s : State) (c : Bool) : PcLaw i s (s.skipIf c) := by
  cases c with
  | false => exact .inl rfl
  | true => exact .inr (.inl ⟨hi, rfl⟩)

theorem Keeps.skipIf {i : Instr} (hi : isSkip i = true) (s : State) (c : Bool) :
    Keeps i s (s.skipIf c) where
  agents := rfl
  regs _ _ _ := rfl
  pc _ := .skipIf hi s c
  display _ := ⟨rfl, rfl⟩
  bytes _ _ := rfl
  mem_wf := id
  sp_legal := id

/-- One register write and an advance, for an instruction whose destination is that register. -/
theorem Keeps.setV_advance {i : Instr} {x : Reg} (hx : ∀ r, isDestination r i = (r == x)) (s : State) (b : Byte) :
    Keeps i s ((s.setV x b).advance 2) where
  agents := rfl
  regs r hr _ := State.getV_setV_ne s b (by simpa [hx] using hr)
  pc _ := .inl rfl
  display _ := ⟨rfl, rfl⟩
  bytes _ _ := rfl
  mem_wf := id
  sp_legal := id

/-- The flag and one register, in either order, for an instruction that writes the flag and that register. -/
theorem Keeps.setV_setV_advance {i : Instr} {x p q : Reg} (hx : ∀ r, isDestination r i = (r == x))
    (hf : writesFlag i = true) (hpq : (p = x ∧ q = VF) ∨ (p = VF ∧ q = x)) (s : State) (a b : Byte) :
    Keeps i s (((s.setV p a).setV q b).advance 2) where
  agents := rfl
  regs r hr hvf := by
    have hrx : r ≠ x := by simpa [hx] using hr
    have hrf : r ≠ VF := by simpa [hf] using hvf
    obtain ⟨rfl, rfl⟩ | ⟨rfl, rfl⟩ := hpq
    · exact s.getV_setV_setV_advance_ne a b 2 hrx hrf
    · exact s.getV_setV_setV_advance_ne a b 2 hrf hrx
  pc _ := .inl rfl
  display _ := ⟨rfl, rfl⟩
  bytes _ _ := rfl
  mem_wf := id
  sp_legal := id

/-- Every instruction that completes keeps what it should. -/
theorem exec_keeps {i : Instr} {s t : State} (h : exec i s = .next t) : Keeps i s t := by
  cases i with
  | seImm | sneImm | seReg | sneReg => cases h; exact .skipIf rfl s _
  | skp => obtain ⟨c, rfl⟩ := exec_skp_next h; exact .skipIf rfl s c
  | sknp => obtain ⟨c, rfl⟩ := exec_sknp_next h; exact .skipIf rfl s c
  | ldImm | addImm | ldReg | or | and | xor | ldVxDt => cases h; exact .setV_advance (fun _ => rfl) s _
  | ldVxKey x =>
    obtain ⟨hk, rfl⟩ | ⟨b, rfl⟩ := exec_ldVxKey_next h
    · exact ⟨rfl, fun _ _ _ => rfl, fun _ => .inr (.inr ⟨⟨x, rfl⟩, hk, rfl⟩), fun _ => ⟨rfl, rfl⟩, fun _ _ => rfl, id, id⟩
    · exact .setV_advance (fun _ => rfl) s b
  | addReg => cases h; exact .setV_setV_advance (fun _ => rfl) rfl (.inl ⟨rfl, rfl⟩) s _ _
  | sub | shr | subn | shl => cases h; exact .setV_setV_advance (fun _ => rfl) rfl (.inr ⟨rfl, rfl⟩) s _ _
  | rnd x =>
    cases h
    exact ⟨rfl, fun r hr _ => State.getV_setV_ne s.useDraw _ (by simpa [isDestination] using hr), fun _ => .inl rfl,
      fun _ => ⟨rfl, rfl⟩, fun _ _ => rfl, id, id⟩
  | addI =>
    cases h
    exact ⟨rfl, fun r _ hvf => State.getV_setV_ne s _ (by simpa [writesFlag] using hvf), fun _ => .inl rfl,
      fun _ => ⟨rfl, rfl⟩, fun _ _ => rfl, id, id⟩
  | nop | ldI | ldF | ldDtVx | ldStVx =>
    cases h
    exact ⟨rfl, fun _ _ _ => rfl, fun _ => .inl rfl, fun _ => ⟨rfl, rfl⟩, fun _ _ => rfl, id, id⟩
  | jp | jpV0 => cases h; exact ⟨rfl, fun _ _ _ => rfl, nofun, fun _ => ⟨rfl, rfl⟩, fun _ _ => rfl, id, id⟩
  | ret =>
    obtain ⟨hsp, rfl⟩ := exec_ret_next h
    refine ⟨rfl, fun _ _ _ => rfl, nofun, fun _ => ⟨rfl, rfl⟩, fun _ _ => rfl, id, fun _ => ?_⟩
    show (s.sp - 1).toNat ≤ 15
    bv_omega
  | call =>
    obtain ⟨hsp, rfl⟩ := exec_call_next h
    refine ⟨rfl, fun _ _ _ => rfl, nofun, fun _ => ⟨rfl, rfl⟩, fun _ _ => rfl, id, fun _ => ?_⟩
    show (s.sp + 1).toNat ≤ 15
    bv_omega
  | cls => cases h; exact ⟨rfl, fun _ _ _ => rfl, fun _ => .inl rfl, nofun, fun _ _ => rfl, id, id⟩
  | drw x y n =>
    obtain ⟨_, rfl⟩ := exec_drw_next h
    exact ⟨rfl, fun r _ hvf => s.getV_afterDrw_ne x y n (by simpa [writesFlag] using hvf), fun _ => .inl rfl, nofun,
      fun _ _ => rfl, id, id⟩
  | ldB x =>
    rw [exec_ldB] at h
    obtain ⟨_, rfl⟩ := checkRange_succ_next h
    exact ⟨rfl, fun _ _ _ => rfl, fun _ => .inl rfl, fun _ => ⟨rfl, rfl⟩, fun _ => s.read_afterLdB_outside x,
      fun hm => Memory.wf_writeBytes hm _ _, id⟩
  | storeRegs x =>
    rw [exec_storeRegs] at h
    obtain ⟨_, rfl⟩ := checkRange_succ_next h
    exact ⟨rfl, fun _ _ _ => rfl, fun _ => .inl rfl, fun _ => ⟨rfl, rfl⟩, fun _ => s.read_afterStoreRegs_outside x,
      fun hm => Memory.wf_writeBytes hm _ _, id⟩
  | loadRegs x =>
    rw [exec_loadRegs] at h
    obtain ⟨_, rfl⟩ := checkRange_succ_next h
    exact ⟨rfl, fun r hr _ => (s.getV_afterLoadRegs x r).trans (if_neg (by simpa [isDestination] using hr)),
      fun _ => .inl rfl, fun _ => ⟨rfl, rfl⟩, fun _ _ => rfl, id, id⟩

/-! ### The statements -/

/-- Settles O55: `bytes` and `display` of the law. -/
theorem onlyStoresAndDrawsWrite : Obligations.OnlyStoresAndDrawsWrite := fun _ _ _ h =>
  ⟨(exec_keeps h).bytes, (exec_keeps h).display⟩

/-- Settles O56: `agents` of the law. -/
theorem instructionsLeaveTheOtherAgents : Obligations.InstructionsLeaveTheOtherAgents := fun _ _ _ h =>
  (exec_keeps h).agents

/-- Settles O58: `regs` of the law. -/
theorem onlyDestinationsAndFlagsWritten : Obligations.OnlyDestinationsAndFlagsWritten := fun _ _ _ r h =>
  (exec_keeps h).regs r

/-- Settles O59: `pc` of the law. -/
theorem pcAdvancesByTheLaw : Obligations.PcAdvancesByTheLaw := fun _ _ _ h => (exec_keeps h).pc

/-- FX0A completes, pressed key or none. -/
theorem exec_ldVxKey_completes (x : Reg) (s : State) : ∃ t, exec (.ldVxKey x) s = .next t := by
  cases h : s.firstKey with
  | none => exact ⟨_, exec_ldVxKey_of_no_key x h⟩
  | some k => exact ⟨_, exec_ldVxKey_of_pressed x h⟩

/-- A transfer of `n + 1` bytes completes or faults with its range. -/
theorem checkRange_succ_completes_or_faults (base n : Nat) (t : State) :
    (base + n ≤ 0xFFF → ∃ u, checkRange base (n + 1) (.next t) = .next u) ∧
      (¬ base + n ≤ 0xFFF → ∃ r, checkRange base (n + 1) (.next t) = .fault r) :=
  ⟨fun h => ⟨t, checkRange_succ_of_le _ h⟩, fun h => ⟨_, checkRange_succ_of_gt _ (not_le.mp h)⟩⟩

/-- Settles O60: eight instructions have a bound to meet, and each completes inside it and faults outside; the others
always complete. -/
theorem instructionsSucceedInTheirDomain : Obligations.InstructionsSucceedInTheirDomain := fun i s hsp => by
  cases i with
  | call nnn => exact ⟨fun h => ⟨_, exec_call_of_lt nnn h⟩, fun h => ⟨_, exec_call_of_ge nnn h⟩⟩
  | ret => exact ⟨fun h => ⟨_, exec_ret_of_legal h hsp⟩,
      fun h => ⟨_, exec_ret_of_zero (BitVec.eq_of_toNat_eq (Nat.eq_zero_of_not_pos h))⟩⟩
  | drw x y n =>
    refine ⟨fun h => ⟨_, exec_drw_of_le x y h⟩, fun h => ⟨_, exec_drw_of_gt x y ?_ ?_⟩⟩
    · exact Nat.pos_of_ne_zero fun h0 => h (.inl h0)
    · exact not_le.mp fun hle => h (.inr hle)
  | ldB x => exact checkRange_succ_completes_or_faults s.i.toNat 2 _
  | storeRegs x => exact checkRange_succ_completes_or_faults s.i.toNat x.val _
  | loadRegs x => exact checkRange_succ_completes_or_faults s.i.toNat x.val _
  | skp x =>
    exact ⟨fun h => ⟨_, exec_skp_of_key (k := ⟨_, Nat.lt_succ_of_le h⟩) rfl⟩, fun h => ⟨_, exec_skp_of_gt (not_le.mp h)⟩⟩
  | sknp x =>
    exact ⟨fun h => ⟨_, exec_sknp_of_key (k := ⟨_, Nat.lt_succ_of_le h⟩) rfl⟩, fun h => ⟨_, exec_sknp_of_gt (not_le.mp h)⟩⟩
  | ldVxKey x => exact ⟨fun _ => exec_ldVxKey_completes x s, fun h => absurd trivial h⟩
  | _ => exact ⟨fun _ => ⟨_, rfl⟩, fun h => absurd trivial h⟩

end Sys2Proof.Machine
end

section
/-! The timer unit (60_exceptions.md section 7): its two sub-steps, its atomic steps, and any number of ticks. -/

namespace Sys2Proof.Machine

/-! ### The sub-steps -/

theorem toNat_delaySubStep_dt (s : State) : (delaySubStep s).dt.toNat = s.dt.toNat - 1 := by
  unfold delaySubStep
  split
  · next h => simp [h]
  · show (s.dt - 1).toNat = s.dt.toNat - 1
    bv_omega

theorem toNat_soundSubStep_st (s : State) : (soundSubStep s).st.toNat = s.st.toNat - 1 := by
  unfold soundSubStep
  split
  · next h => simp [h]
  · have hst : (s.st - 1).toNat = s.st.toNat - 1 := by bv_omega
    dsimp only
    split <;> exact hst

/-- The beep is emitted exactly on the step from 1 to 0. -/
theorem soundSubStep_outputs (s : State) :
    (soundSubStep s).outputs = if s.st.toNat = 1 then .beep :: s.outputs else s.outputs := by
  unfold soundSubStep
  split
  · next h => simp [h]
  · dsimp only
    split
    · next h => exact (if_pos (by bv_omega)).symm
    · next h => exact (if_neg (by bv_omega)).symm

/-- The sound sub-step does not look at the unit's phase. -/
theorem soundSubStep_tickPhase (s : State) (p : TickPhase) :
    soundSubStep { s with tickPhase := p } = { soundSubStep s with tickPhase := p } := by
  unfold soundSubStep
  split
  · rfl
  · dsimp only
    split <;> rfl

/-- Settles O40: a counter above 0 loses 1 without a wrap, and 0 - 1 is 0 on naturals. -/
theorem tickSubStepsCountDown : Obligations.TickSubStepsCountDown := fun s =>
  ⟨toNat_delaySubStep_dt s, delaySubStep_frame s, toNat_soundSubStep_st s, soundSubStep_outputs s, soundSubStep_frame s⟩

/-! ### The atomic steps -/

theorem timerStep_of_idle {s : State} (h : s.tickPhase = .idle) (hr : s.running = true) :
    timerStep s = { delaySubStep s with tickPhase := .soundDue } := by
  simp only [timerStep, h, hr, if_true]

theorem timerStep_of_stopped {s : State} (h : s.tickPhase = .idle) (hr : s.running = false) : timerStep s = s := by
  simp [timerStep, h, hr]

theorem timerStep_of_soundDue {s : State} (h : s.tickPhase = .soundDue) :
    timerStep s = { soundSubStep s with tickPhase := .idle } := by
  simp only [timerStep, h]

/-- A tick leaves the unit's phase alone. -/
theorem tick_tickPhase (s : State) : (tick s).tickPhase = s.tickPhase :=
  (congrArg State.tickPhase (soundSubStep_frame (delaySubStep s)) :).trans
    (congrArg State.tickPhase (delaySubStep_frame s) :)

/-- Settles O41: the phase the first sub-step leaves makes the second the next, which puts the phase back. -/
theorem timerStepsMakeTicks : Obligations.TimerStepsMakeTicks := fun s => by
  refine ⟨fun h hr => ⟨timerStep_of_idle h hr, ?_⟩, timerStep_of_soundDue, timerStep_of_stopped⟩
  have hphase : (tick s).tickPhase = .idle := (tick_tickPhase s).trans h
  calc timerStep (timerStep s)
    _ = { soundSubStep { delaySubStep s with tickPhase := .soundDue } with tickPhase := .idle } := by
      rw [timerStep_of_idle h hr, timerStep_of_soundDue rfl]
    _ = { tick s with tickPhase := .idle } := by rw [soundSubStep_tickPhase]; rfl
    _ = tick s := by rw [← hphase]

/-! ### Many ticks -/

theorem toNat_tick_dt (s : State) : (tick s).dt.toNat = s.dt.toNat - 1 := by
  have hsound : (tick s).dt = (delaySubStep s).dt := (congrArg State.dt (soundSubStep_frame (delaySubStep s)) :)
  rw [hsound, toNat_delaySubStep_dt]

theorem delaySubStep_st (s : State) : (delaySubStep s).st = s.st := (congrArg State.st (delaySubStep_frame s) :)

theorem toNat_tick_st (s : State) : (tick s).st.toNat = s.st.toNat - 1 := by
  rw [tick, toNat_soundSubStep_st, delaySubStep_st]

theorem beepCount_tick (s : State) : beepCount (tick s) = beepCount s + if s.st.toNat = 1 then 1 else 0 := by
  have hout : (delaySubStep s).outputs = s.outputs :=
    (congrArg State.outputs (delaySubStep_frame s) :)
  rw [beepCount, tick, soundSubStep_outputs, delaySubStep_st, hout]
  split
  · exact List.count_cons_self
  · rfl

/-- Settles O42, by induction on the number of ticks, the first tick taken off. -/
theorem ticksCountDownToZero : Obligations.TicksCountDownToZero := fun n => by
  induction n with
  | zero =>
    intro s
    have hnone : ¬ (1 ≤ s.st.toNat ∧ s.st.toNat ≤ 0) := by omega
    exact ⟨rfl, rfl, by rw [if_neg hnone]; rfl⟩
  | succ n ih =>
    intro s
    obtain ⟨hdt, hst, hbeeps⟩ := ih (tick s)
    rw [toNat_tick_dt] at hdt
    rw [toNat_tick_st] at hst hbeeps
    rw [beepCount_tick] at hbeeps
    rw [Function.iterate_succ_apply]
    refine ⟨by omega, by omega, hbeeps.trans ?_⟩
    split_ifs <;> omega

end Sys2Proof.Machine
end

section
/-! The keyboard unit (60_exceptions.md section 8): what each operation does to one key, and a poll iteration as atomic
steps. -/

namespace Sys2Proof.Machine

/-! ### One key -/

/-- What the unit holds of key `k`: its pressed flag and its deadline. -/
def State.keyCell (s : State) (k : Key) : Bool × Nat := (s.key[k], s.expiry[k])

/-- One entry of a 16-entry vector after a write. -/
theorem getElem_set_key {α : Type} (v : Vector α 16) (j k : Key) (a : α) :
    (v.set j a)[k] = if k = j then a else v[k] := by
  simp only [Fin.getElem_fin, Vector.getElem_set, eq_comm, Fin.ext_iff]

/-- A press sets the key's flag and deadline, and no other key's. -/
theorem keyCell_press (j k : Key) (now : Nat) (s : State) :
    (press j now s).keyCell k = if k = j then (true, now + 100) else s.keyCell k := by
  simp only [State.keyCell, press, getElem_set_key]
  split <;> rfl

theorem keyCell_expire (j k : Key) (s : State) :
    (expire j s).keyCell k = if k = j then (false, 0) else s.keyCell k := by
  simp only [State.keyCell, expire, getElem_set_key]
  split <;> rfl

/-- A deadline that has elapsed. -/
theorem expireEnabled_iff (k : Key) (now : Nat) (s : State) :
    expireEnabled k now s = true ↔ s.expiry[k] ≠ 0 ∧ s.expiry[k] ≤ now := by
  rw [expireEnabled, Bool.and_eq_true, decide_eq_true_eq, decide_eq_true_eq]

theorem expireEnabled_congr {k : Key} {s t : State} (now : Nat) (h : s.keyCell k = t.keyCell k) :
    expireEnabled k now s = expireEnabled k now t := by
  have hdeadline : s.expiry[k] = t.expiry[k] := congrArg Prod.snd h
  rw [expireEnabled, expireEnabled, hdeadline]

/-- An inspection clears the key inspected, if its deadline has elapsed. -/
theorem keyCell_inspectKey (j k : Key) (now : Nat) (s : State) :
    (inspectKey j now s).keyCell k = if k = j ∧ expireEnabled k now s = true then (false, 0) else s.keyCell k := by
  unfold inspectKey
  by_cases hk : k = j
  · subst hk
    split
    · next h => simp [keyCell_expire, h]
    · next h => simp [h]
  · split
    · simp [keyCell_expire, hk]
    · simp [hk]

/-- Settles O43: a press is one write to each of two vectors, an inspection an expiry or nothing. -/
theorem pressAndExpireMoveOneKey : Obligations.PressAndExpireMoveOneKey := fun k now s => by
  have hself : (press k now s).keyCell k = (true, now + 100) := (keyCell_press k k now s).trans (if_pos rfl)
  refine ⟨congrArg Prod.fst hself, congrArg Prod.snd hself, fun j hj => ?_, rfl, fun h0 hle => ?_, fun h => ?_⟩
  · exact Prod.mk.inj ((keyCell_press k j now s).trans (if_neg hj))
  · have hdue : inspectKey k now s = expire k s := if_pos ((expireEnabled_iff k now s).mpr ⟨h0, hle⟩)
    rw [hdue]
    have hcell : (expire k s).keyCell k = (false, 0) := (keyCell_expire k k s).trans (if_pos rfl)
    exact ⟨congrArg Prod.fst hcell, congrArg Prod.snd hcell,
      fun j hj => Prod.mk.inj ((keyCell_expire k j s).trans (if_neg hj)), rfl⟩
  · refine if_neg fun hdue => ?_
    obtain ⟨h0, hle⟩ := (expireEnabled_iff k now s).mp hdue
    omega

/-! ### A poll iteration, key by key -/

/-- The presses of an iteration. -/
theorem keyCell_foldl_press (q : List Key) (k : Key) (now : Nat) (s : State) :
    (q.foldl (fun t j => press j now t) s).keyCell k = if k ∈ q then (true, now + 100) else s.keyCell k := by
  induction q generalizing s with
  | nil => rfl
  | cons j q ih =>
    rw [List.foldl_cons, ih, keyCell_press]
    by_cases hq : k ∈ q <;> by_cases hj : k = j <;> simp [hq, hj]

/-- The inspections of an iteration: once released, a key has no deadline to elapse. -/
theorem keyCell_foldl_inspectKey (ks : List Key) (k : Key) (now : Nat) (s : State) :
    (ks.foldl (fun t j => inspectKey j now t) s).keyCell k =
      if k ∈ ks ∧ expireEnabled k now s = true then (false, 0) else s.keyCell k := by
  induction ks generalizing s with
  | nil => simp
  | cons j ks ih =>
    rw [List.foldl_cons, ih]
    have hcell := keyCell_inspectKey j k now s
    by_cases hj : k = j ∧ expireEnabled k now s = true
    · rw [if_pos hj] at hcell
      rw [hcell, ite_self, if_pos ⟨hj.1 ▸ List.mem_cons_self, hj.2⟩]
    · rw [if_neg hj] at hcell
      rw [expireEnabled_congr now hcell, hcell]
      congr 1
      simp only [List.mem_cons, eq_iff_iff]
      tauto

theorem mem_allKeys (k : Key) : k ∈ allKeys := allKeys_eq_finRange ▸ List.mem_finRange k

/-- A key with a press waiting is not due when it is inspected: its deadline is then 100 ms ahead. -/
theorem keyCell_poll (now : Nat) (s : State) (k : Key) :
    (poll now s).keyCell k =
      if k ∈ s.keyQueue then (true, now + 100)
      else if expireEnabled k now s = true then (false, 0) else s.keyCell k := by
  let drained := s.keyQueue.foldl (fun t j => press j now t) { s with now := now, keyQueue := [] }
  have hpoll : (poll now s).keyCell k = if k ∈ allKeys ∧ expireEnabled k now drained = true then (false, 0)
      else drained.keyCell k := keyCell_foldl_inspectKey allKeys k now drained
  have hdrained : drained.keyCell k = if k ∈ s.keyQueue then (true, now + 100) else s.keyCell k :=
    keyCell_foldl_press s.keyQueue k now _
  rw [hpoll]
  by_cases hq : k ∈ s.keyQueue
  · rw [if_pos hq] at hdrained ⊢
    have hdeadline : drained.expiry[k] = now + 100 := congrArg Prod.snd hdrained
    have hnotdue : ¬ expireEnabled k now drained = true := fun h => by
      have hle := ((expireEnabled_iff k now drained).mp h).2
      omega
    rw [if_neg fun h => hnotdue h.2, hdrained]
  · rw [if_neg hq] at hdrained ⊢
    rw [expireEnabled_congr now hdrained, hdrained]
    exact if_congr (and_iff_right (mem_allKeys k)) rfl rfl

/-- Settles O45: the three cases of `keyCell_poll`. -/
theorem pollReleasesDueKeys : Obligations.PollReleasesDueKeys := fun now s k => by
  have hcell := keyCell_poll now s k
  refine ⟨fun hq => ?_, fun hq h0 hle => ?_, fun hq h => ?_⟩
  · rw [if_pos hq] at hcell
    exact Prod.mk.inj hcell
  · rw [if_neg hq, if_pos ((expireEnabled_iff k now s).mpr ⟨h0, hle⟩)] at hcell
    exact Prod.mk.inj hcell
  · have hnotdue : ¬ expireEnabled k now s = true := fun hdue => by
      obtain ⟨h0, hle⟩ := (expireEnabled_iff k now s).mp hdue
      omega
    rw [if_neg hq, if_neg hnotdue] at hcell
    exact Prod.mk.inj hcell

/-! ### A poll iteration, step by step -/

/-- The state with the unit at another place of its iteration. -/
def State.atPhase (s : State) (p : KeyboardPhase) : State := { s with keyboard := p }

/-- Neither operation on the keys looks at the unit's place. -/
theorem press_atPhase (k : Key) (now : Nat) (s : State) (p : KeyboardPhase) :
    press k now (s.atPhase p) = (press k now s).atPhase p := rfl

theorem inspectKey_atPhase (k : Key) (now : Nat) (s : State) (p : KeyboardPhase) :
    inspectKey k now (s.atPhase p) = (inspectKey k now s).atPhase p := by
  have hdue : expireEnabled k now (s.atPhase p) = expireEnabled k now s := rfl
  unfold inspectKey
  rw [hdue]
  split <;> rfl

/-- An operation on the keys leaves the time alone. -/
theorem inspectKey_now (k : Key) (now : Nat) (s : State) : (inspectKey k now s).now = s.now := by
  unfold inspectKey
  split <;> rfl

theorem keyboardStep_start {now : Nat} {s : State} (h : s.keyboard = .idle) (hr : s.running = true) :
    keyboardStep now s = { s with now := now, keyQueue := [] }.atPhase (.draining s.keyQueue) := by
  simp only [keyboardStep, h, hr, if_true]
  rfl

theorem keyboardStep_stopped {now : Nat} {s : State} (h : s.keyboard = .idle) (hr : s.running = false) :
    keyboardStep now s = { s with now := now } := by
  simp [keyboardStep, h, hr]

theorem keyboardStep_press {now : Nat} {s : State} (hnow : s.now = now) (k : Key) (ks : List Key) :
    keyboardStep now (s.atPhase (.draining (k :: ks))) = (press k now s).atPhase (.draining ks) := by
  subst hnow; rfl

theorem keyboardStep_inspectFirst {now : Nat} {s : State} (hnow : s.now = now) :
    keyboardStep now (s.atPhase (.draining [])) = (inspectKey 0 now s).atPhase (phaseAfterKey 0) := by
  subst hnow
  exact (congrArg (State.atPhase · (phaseAfterKey 0)) (inspectKey_atPhase 0 s.now s (.draining [])) :)

theorem keyboardStep_inspect {now : Nat} {s : State} (hnow : s.now = now) (k : Key) :
    keyboardStep now (s.atPhase (.scanning k)) = (inspectKey k now s).atPhase (phaseAfterKey k) := by
  subst hnow
  exact (congrArg (State.atPhase · (phaseAfterKey k)) (inspectKey_atPhase k s.now s (.scanning k)) :)

/-- The presses, one step each. -/
theorem keyboardStep_iterate_draining {now : Nat} (q : List Key) {s : State} (hnow : s.now = now) :
    (keyboardStep now)^[q.length] (s.atPhase (.draining q)) =
      (q.foldl (fun t k => press k now t) s).atPhase (.draining []) := by
  induction q generalizing s with
  | nil => rfl
  | cons k ks ih =>
    rw [List.length_cons, Function.iterate_succ_apply, keyboardStep_press hnow, List.foldl_cons]
    exact ih hnow

theorem allKeys_drop (k : Key) : allKeys.drop k.val = k :: allKeys.drop (k.val + 1) := by
  revert k
  decide

/-- The inspections from key `k` on, one step each, to the end of the iteration. -/
theorem keyboardStep_iterate_scanning {now : Nat} (n : Nat) {s : State} (hnow : s.now = now) (k : Key)
    (hk : k.val + n = 15) :
    (keyboardStep now)^[n + 1] (s.atPhase (.scanning k)) =
      ((allKeys.drop k.val).foldl (fun t j => inspectKey j now t) s).atPhase .idle := by
  induction n generalizing s k with
  | zero =>
    have hlast : k = 15 := Fin.ext hk
    subst hlast
    exact keyboardStep_inspect hnow 15
  | succ n ih =>
    have hnext : phaseAfterKey k = .scanning ⟨k.val + 1, by omega⟩ := dif_pos (by omega)
    rw [Function.iterate_succ_apply, keyboardStep_inspect hnow, hnext, allKeys_drop, List.foldl_cons]
    exact ih ((inspectKey_now k now s).trans hnow) ⟨k.val + 1, by omega⟩ (by show k.val + 1 + n = 15; omega)

/-- The sixteen inspections. -/
theorem keyboardStep_iterate_inspections {now : Nat} {s : State} (hnow : s.now = now) :
    (keyboardStep now)^[16] (s.atPhase (.draining [])) =
      (allKeys.foldl (fun t k => inspectKey k now t) s).atPhase .idle := by
  have hall : allKeys = 0 :: allKeys.drop 1 := allKeys_drop 0
  rw [Function.iterate_succ_apply _ 15, keyboardStep_inspectFirst hnow, hall, List.foldl_cons]
  exact keyboardStep_iterate_scanning 14 ((inspectKey_now 0 now s).trans hnow) 1 rfl

theorem foldl_press_now (q : List Key) (now : Nat) (s : State) :
    (q.foldl (fun t k => press k now t) s).now = s.now := by
  induction q generalizing s with
  | nil => rfl
  | cons k ks ih => exact ih (press k now s)

/-- A poll iteration is not about the unit's place. -/
theorem poll_atPhase (now : Nat) (s : State) (p : KeyboardPhase) : poll now (s.atPhase p) = (poll now s).atPhase p := by
  unfold poll
  dsimp only
  rw [← List.foldl_hom (State.atPhase · p) (g₁ := fun t k => inspectKey k now t)
      (g₂ := fun t k => inspectKey k now t) fun t k => inspectKey_atPhase k now t p,
    ← List.foldl_hom (State.atPhase · p) (g₁ := fun t k => press k now t) (g₂ := fun t k => press k now t)
      fun t k => press_atPhase k now t p]
  rfl

/-- Settles O44: one start, the presses, the inspections, and the unit is back where it began. -/
theorem keyboardStepsMakeAPoll : Obligations.KeyboardStepsMakeAPoll := fun now s h => by
  refine ⟨fun hr => ?_, keyboardStep_stopped h⟩
  have hidle : s.atPhase .idle = s := by rw [State.atPhase, ← h]
  calc (keyboardStep now)^[s.keyQueue.length + 17] s
    _ = (keyboardStep now)^[16] ((keyboardStep now)^[s.keyQueue.length] (keyboardStep now s)) := by
      rw [← Function.iterate_add_apply, ← Function.iterate_succ_apply, Nat.add_comm 16]
    _ = (poll now s).atPhase .idle := by
      rw [keyboardStep_start h hr, keyboardStep_iterate_draining _ (now := now) rfl,
        keyboardStep_iterate_inspections (now := now) (foldl_press_now _ now _)]
      rfl
    _ = poll now s := by rw [← poll_atPhase, hidle]

end Sys2Proof.Machine
end

section
/-! The cycle, its failures, and the order of the steps (30_encoding.md section 1, 60_exceptions.md sections 1, 2 and 11). -/

namespace Sys2Proof.Machine

/-! ### The cycle -/

/-- A cycle inside memory runs the instruction its word decodes to. -/
theorem cycle_of_instr {s : State} {i : Instr} (h : s.pc.toNat ≤ 0xFFE) (hi : decodeWord s.fetchWord = .instr i) :
    cycle s = exec i (s.latch s.fetchWord) := by
  rw [cycle, hi]
  exact checkRange_succ_of_le _ (by omega)

theorem cycle_of_illegal {s : State} (h : s.pc.toNat ≤ 0xFFE) (hi : isIllegalWord s.fetchWord = true) :
    cycle s = .next { s with opcode := s.fetchWord, halted := true } := by
  rw [cycle, decodeWord_of_isIllegalWord hi]
  exact checkRange_succ_of_le _ (by omega)

/-- Settles O8: the fetch is a checked range of two bytes. -/
theorem fetchBeyondMemoryFaults : Obligations.FetchBeyondMemoryFaults := fun _ h =>
  checkRange_succ_of_gt _ (by omega)

/-- Settles O9: the decoder answers Illegal on a listed word, and the failure's answer is read off the state it leaves. -/
theorem illegalWordHaltsTheBlock : Obligations.IllegalWordHaltsTheBlock := fun s h hi => by
  rw [cycle_of_illegal h hi]
  exact ⟨rfl, rfl, rfl⟩

/-- Settles O10: a recorded fault is the first thing the scheduler's turn looks at. -/
theorem faultIsRecordedAndStops : Obligations.FaultIsRecordedAndStops := by
  refine ⟨fun s r h => ?_, fun _ => ⟨rfl, rfl⟩, fun _ => ⟨rfl, rfl⟩, fun _ => ⟨rfl, rfl⟩, fun _ => ⟨rfl, rfl⟩⟩
  rw [h, recordOutcome_fault]
  exact ⟨rfl, rfl, rfl, rfl, rfl⟩

/-! ### The order of the steps -/

/-- Step number `n` of a source. -/
def Source.event : Source → Nat → Event
  | .free k, n => Config.arrival (k + n)
  | .repeating p, n => p.getD (n % p.length) .scheduler

theorem State.upcoming_of_lt {s : State} {n : Nat} (h : n < s.schedule.length) : s.upcoming n = s.schedule[n] :=
  dif_pos h

/-- After the schedule the steps are the source's. -/
theorem State.upcoming_of_ge {s : State} {n : Nat} (h : s.schedule.length ≤ n) :
    s.upcoming n = s.source.event (n - s.schedule.length) := by
  rw [State.upcoming, dif_neg (not_lt.mpr h)]
  cases s.source <;> rfl

/-- Taking a step off a source moves every later one up by one place; a repeating source is rotated. -/
theorem event_advanceSource (src : Source) (n : Nat) : (advanceSource src).event n = src.event (n + 1) := by
  cases src with
  | free k => exact congrArg Config.arrival (by omega)
  | repeating p =>
    cases p with
    | nil => rfl
    | cons e rest =>
      have hrotate : rest ++ [e] = (e :: rest).rotate 1 := by rw [List.rotate_cons_succ, List.rotate_zero]
      have hpos : n % (e :: rest).length < (e :: rest).length := Nat.mod_lt _ (Nat.succ_pos _)
      show (rest ++ [e]).getD (n % (rest ++ [e]).length) .scheduler = _
      rw [hrotate, List.length_rotate, List.getD_eq_getElem?_getD, List.getElem?_rotate hpos, Nat.mod_add_mod,
        ← List.getD_eq_getElem?_getD]
      rfl

theorem dropNext_nil {s : State} (h : s.schedule = []) : s.dropNext = { s with source := advanceSource s.source } := by
  simp [State.dropNext, h]

/-- The first event to come is the next one. -/
theorem State.upcoming_zero (s : State) : s.upcoming 0 = s.nextEvent := by
  cases h : s.schedule with
  | cons e rest =>
    rw [nextEvent_cons h, State.upcoming_of_lt (by simp [h])]
    simp [h]
  | nil =>
    rw [State.upcoming_of_ge (by simp [h]), State.nextEvent, h]
    cases s.source with
    | free k => rfl
    | repeating p => cases p <;> rfl

/-- What comes after the first event is the order to come once that event is taken. -/
theorem State.upcoming_dropNext (s : State) (n : Nat) : s.dropNext.upcoming n = s.upcoming (n + 1) := by
  cases h : s.schedule with
  | cons e rest =>
    rw [dropNext_cons h]
    by_cases hn : n < rest.length
    · rw [State.upcoming_of_lt hn, State.upcoming_of_lt (by simp [h, hn])]
      simp [h]
    · rw [State.upcoming_of_ge (by simpa using hn), State.upcoming_of_ge (by simp [h]; omega), h, List.length_cons,
        Nat.add_sub_add_right]
  | nil =>
    rw [dropNext_nil h, State.upcoming_of_ge (by simp [h]), State.upcoming_of_ge (by simp [h])]
    simp only [h, List.length_nil, Nat.sub_zero]
    exact event_advanceSource s.source n

/-- When a cycle is due, the step is the cycle after the handshake. -/
theorem step_of_cycleDue {s : State} (h : s.CycleDue) : step s = cycle (handshake s.dropNext) := by
  rw [step_eq h.turn]
  simp [takeEvent, schedulerTurn, h.running, h.not_halted, h.no_fault]

/-- Settles O7: neither the handshake nor the order to come is what the fetch looks at. -/
theorem stepRunsTheDecodedInstruction : Obligations.StepRunsTheDecodedInstruction := fun s => by
  refine ⟨fun i hpc hi hdue => ?_, ?_, s.upcoming_dropNext, dropNext_frame s⟩
  · have hfetch : (handshake s.dropNext).fetchWord = s.fetchWord := by rw [handshake_fetchWord, dropNext_fetchWord]
    have hpc' : (handshake s.dropNext).pc.toNat ≤ 0xFFE := by rwa [handshake_pc, dropNext_pc]
    rw [step_of_cycleDue hdue, cycle_of_instr hpc' ((congrArg decodeWord hfetch).trans hi), hfetch]
  · rw [State.upcoming_zero, step]

end Sys2Proof.Machine
end

section
/-! The host's steps, and what the other agents leave alone (60_exceptions.md section 9, 10_state.md section 10). -/

namespace Sys2Proof.Machine

theorem handshake_of_dirty {s : State} (hd : s.dirty = true) (hh : s.halted = false) :
    handshake s = { s with dirty := false, outputs := .frame s.fb :: s.outputs } :=
  if_pos (by rw [hd, hh]; rfl)

theorem handshake_of_halted {s : State} (h : s.halted = true) : handshake s = s := by
  simp [handshake, h]

/-- Settles O47: a handshake taken leaves the flag clear, so a second one does nothing. -/
theorem handshakeHandsOverOnce : Obligations.HandshakeHandsOverOnce := fun s => by
  refine ⟨handshake_of_dirty, fun h => h.elim handshake_of_clean handshake_of_halted, ?_⟩
  cases hd : s.dirty with
  | false => rw [handshake_of_clean hd, handshake_of_clean hd]
  | true =>
    cases hh : s.halted with
    | false => rw [handshake_of_dirty hd hh, handshake_of_clean rfl]
    | true => rw [handshake_of_halted hh, handshake_of_halted hh]

/-- Settles O49: the snapshot is the state's own `status`. -/
theorem snapshotOnlyReads : Obligations.SnapshotOnlyReads := fun s =>
  ⟨_, s.status, rfl, rfl, rfl, rfl, rfl, rfl, rfl, rfl, rfl⟩

/-- Settles O57: the frames of the units' steps and of the handshake. -/
theorem agentsLeaveTheInterpreter : Obligations.AgentsLeaveTheInterpreter := fun s =>
  ⟨⟨_, rfl, timerStep_frame s⟩, fun _ => ⟨_, rfl, keyboardStep_now _ s, keyboardStep_frame _ s⟩, fun _ => rfl,
    ⟨_, rfl, handshake_frame s⟩, ⟨_, rfl, rfl⟩, rfl⟩

end Sys2Proof.Machine
end

section
/-! Boot and reset (70_reset_and_hazards.md section 1, 10_state.md section 11). -/

namespace Sys2Proof.Machine

theorem length_font : Config.font.length = 80 := by decide

/-- Above the font an unlisted address reads as 0. -/
theorem Memory.unlisted_of_ge {a : Nat} (h : 80 ≤ a) : Memory.unlisted a = 0 :=
  List.getD_eq_default _ _ (length_font ▸ h)

/-- Byte writes at rising addresses, read back at any address. -/
theorem Memory.read_writeBytes (m : Memory) {a : Nat} (b : Nat) {bs : List Byte} (h : a + bs.length ≤ 0x1000) :
    Memory.read (Memory.writeBytes m a bs) b =
      if a ≤ b ∧ b < a + bs.length then bs.getD (b - a) 0 else Memory.read m b := by
  split
  · next hb =>
    obtain ⟨j, rfl⟩ := Nat.exists_eq_add_of_le hb.1
    have hj : j < bs.length := by omega
    rw [Memory.read_writeBytes_inside m a j bs hj h, Nat.add_sub_cancel_left, List.getD_eq_getElem _ _ hj]
  · exact Memory.read_writeBytes_outside m a b bs (by omega)

/-- The first `n` bytes of a list are the list's own. -/
theorem getD_take (bs : List Byte) {n j : Nat} (h : j < n) : (bs.take n).getD j 0 = bs.getD j 0 := by
  rw [List.getD_eq_getElem?_getD, List.getD_eq_getElem?_getD, List.getElem?_take_of_lt h]

/-- The memory after boot, byte by byte. -/
theorem read_bootMemory {font : List Byte} (rom : List Byte) (hfont : font.length = 80) (a : Nat) :
    Memory.read (bootMemory font rom) a =
      if a < 80 then font.getD a 0
      else if 0x200 ≤ a ∧ a < 0x200 + min rom.length 3584 then rom.getD (a - 0x200) 0 else 0 := by
  have hlen : (rom.take Config.romMax).length = min rom.length 3584 := by rw [List.length_take, min_comm]
  have hfontlen : (font.take 80).length = 80 := by rw [List.length_take, hfont, min_self]
  rw [bootMemory, Memory.read_writeBytes _ _ (by rw [hlen]; show 0x200 + _ ≤ _; omega),
    Memory.read_writeBytes _ _ (by omega), hlen, hfontlen]
  by_cases hlow : a < 80
  · rw [if_pos hlow, if_neg (by show ¬ (0x200 ≤ a ∧ _); omega), if_pos (by omega), Nat.sub_zero, getD_take font hlow]
  · rw [if_neg hlow]
    by_cases hrom : 0x200 ≤ a ∧ a < 0x200 + min rom.length 3584
    · rw [if_pos hrom, if_pos hrom, getD_take rom (by show a - 0x200 < 3584; omega)]
    · rw [if_neg hrom, if_neg hrom, if_neg (by omega)]
      exact Memory.unlisted_of_ge (not_lt.mp hlow)

/-- Settles O50: boot writes two disjoint blocks into the empty memory. -/
theorem bootLoadsFontAndImage : Obligations.BootLoadsFontAndImage := fun _ rom hfont =>
  ⟨fun h => if_pos h, fun h => ⟨_, if_neg (not_lt.mpr h), rfl,
    Memory.wf_writeBytes (Memory.wf_writeBytes Memory.wf_nil _ _) _ _, fun a _ => read_bootMemory rom hfont a⟩, rfl⟩

/-- Settles O51: the font and the zeros above it are what an unlisted address reads as. -/
theorem resetHoldsTheTabulatedValues : Obligations.ResetHoldsTheTabulatedValues :=
  ⟨rfl, rfl, rfl, rfl, by decide, rfl, by decide, cellAt_blank, rfl, by decide, rfl, rfl, rfl, rfl, fun _ _ => rfl,
    fun _ => Memory.unlisted_of_ge⟩

/-- Settles O53: no cell is listed, no key is pressed, and `now` is 1. -/
theorem resetHasTheInvariant : Obligations.ResetHasTheInvariant where
  mem_wf := State.reset_mem_wf
  sp_legal := by decide
  key_iff_deadline := by decide
  now_pos := by decide
  deadline_near := by decide
  halted_clean := nofun

end Sys2Proof.Machine
end

section
/-! Every step of every agent: one list of what a step can be, by whichever agent, and the statements about all of them by
cases on that list (60_exceptions.md sections 5, 8 and 9). -/

namespace Sys2Proof.Machine

/-! ### The frames, solved for the state left -/

theorem handshake_eq (s : State) :
    handshake s = { s with dirty := (handshake s).dirty, outputs := (handshake s).outputs } :=
  congrArg (fun u : State => { u with dirty := (handshake s).dirty, outputs := (handshake s).outputs })
    (handshake_frame s)

@[simp] theorem handshake_now (s : State) : (handshake s).now = s.now := (congrArg State.now (handshake_frame s) :)

theorem timerStep_eq (s : State) :
    timerStep s = { s with dt := (timerStep s).dt, st := (timerStep s).st, tickPhase := (timerStep s).tickPhase,
                           outputs := (timerStep s).outputs } :=
  congrArg (fun u : State => { u with dt := (timerStep s).dt, st := (timerStep s).st,
                                      tickPhase := (timerStep s).tickPhase, outputs := (timerStep s).outputs })
    (timerStep_frame s)

theorem keyboardStep_eq (now : Nat) (s : State) :
    keyboardStep now s = { s with key := (keyboardStep now s).key, expiry := (keyboardStep now s).expiry,
                                  keyboard := (keyboardStep now s).keyboard,
                                  keyQueue := (keyboardStep now s).keyQueue, now := (keyboardStep now s).now } :=
  congrArg (fun u : State => { u with key := (keyboardStep now s).key, expiry := (keyboardStep now s).expiry,
                                      keyboard := (keyboardStep now s).keyboard,
                                      keyQueue := (keyboardStep now s).keyQueue, now := (keyboardStep now s).now })
    (keyboardStep_frame now s)

/-- Only the schedule and the source change when a step is taken off the order to come. -/
theorem dropNext_eq (s : State) :
    s.dropNext = { s with schedule := s.dropNext.schedule, source := s.dropNext.source } :=
  congrArg (fun u : State => { u with schedule := s.dropNext.schedule, source := s.dropNext.source }) (dropNext_frame s)

/-! ### What a step can be -/

/-- The state `t` that some agent's step leaves, from the state `u` whose order to come the step has been taken off. -/
inductive AgentStep (u : State) : State → Prop
  /-- a cycle that completes, after the handshake owed -/
  | instr {t : State} (i : Instr) (op : Word) (running : u.running = true) (not_halted : u.halted = false)
      (h : exec i ((handshake u).latch op) = .next t) : AgentStep u t
  /-- a cycle that fails to decode, after the handshake owed -/
  | fail (op : Word) (running : u.running = true) (not_halted : u.halted = false) :
      AgentStep u { (handshake u).latch op with halted := true }
  /-- `running` falls -/
  | stop : AgentStep u u.stopRunning
  | handshake : AgentStep u (handshake u)
  | timer : AgentStep u (timerStep u)
  | keyboard (elapsed : Nat) : AgentStep u (keyboardStep (u.now + elapsed) u)
  | keyDown (k : Key) : AgentStep u (queueKeyDown k u)
  | snapshot : AgentStep u (u.emit (.status u.status))
  /-- nothing is left to do -/
  | rest : AgentStep u u

theorem AgentStep.of_windDown (u : State) : AgentStep u (windDown u) := by
  obtain h | h | h | h := windDown_cases u
  · exact h ▸ .handshake
  · exact h ▸ .timer
  · exact h ▸ .keyboard 0
  · rw [h]; exact .rest

theorem AgentStep.of_schedulerTurn {u t : State} (h : schedulerTurn u = .next t) : AgentStep u t := by
  obtain ⟨_, ⟨_, _, rfl⟩ | ⟨hr, hh, hcycle⟩ | ⟨_, rfl⟩⟩ := schedulerTurn_next h
  · exact .stop
  · obtain ⟨i, _, hexec⟩ | ⟨op, rfl⟩ := cycle_next hcycle
    · exact .instr i _ hr hh hexec
    · exact .fail op hr hh
  · exact .of_windDown u

/-- A step that answers a next state is one of them. -/
theorem step_next {s t : State} (h : step s = .next t) :
    AgentStep { s with schedule := s.dropNext.schedule, source := s.dropNext.source } t := by
  rw [← dropNext_eq]
  unfold step at h
  cases he : s.nextEvent <;> rw [he] at h
  case scheduler => exact .of_schedulerTurn h
  case handshake => cases h; exact .handshake
  case timer => cases h; exact .timer
  case keyboard elapsed => cases h; exact .keyboard elapsed
  case keyDown k => cases h; exact .keyDown k
  case snapshot => cases h; exact .snapshot
  case exitRequest => cases h; exact .stop

/-- A completed cycle's instruction leaves the other agents' fields, its fetch and the handshake included. -/
theorem exec_latch_handshake_frame {u t : State} {i : Instr} {op : Word}
    (h : exec i ((handshake u).latch op) = .next t) :
    { t with v := u.v, i := u.i, pc := u.pc, stack := u.stack, sp := u.sp, dt := u.dt, st := u.st, mem := u.mem,
             fb := u.fb, dirty := u.dirty, opcode := u.opcode, draws := u.draws, outputs := u.outputs } = u := by
  have hagents := (exec_keeps h).agents
  rw [handshake_eq] at hagents
  exact (congrArg (fun w : State =>
    { w with v := u.v, i := u.i, pc := u.pc, stack := u.stack, sp := u.sp, dt := u.dt, st := u.st, mem := u.mem,
             fb := u.fb, dirty := u.dirty, opcode := u.opcode, draws := u.draws, outputs := u.outputs }) hagents :)

/-! ### The stop flags -/

/-- Settles O54: a cycle alone writes `halted`, and only to set it; `running` is only cleared. -/
theorem stopFlagsAreSticky : Obligations.StopFlagsAreSticky := fun s t h => by
  cases step_next h with
  | instr i op hr hh hexec =>
    exact ⟨(congrArg State.fault (exec_latch_handshake_frame hexec) :), fun h1 => absurd (h1.symm.trans hh) (by decide),
      fun h0 => absurd (h0.symm.trans hr) (by decide)⟩
  | fail op =>
    rw [handshake_eq]
    exact ⟨rfl, fun _ => rfl, id⟩
  | stop => exact ⟨rfl, id, fun _ => rfl⟩
  | handshake =>
    rw [handshake_eq]
    exact ⟨rfl, id, id⟩
  | timer =>
    rw [timerStep_eq]
    exact ⟨rfl, id, id⟩
  | keyboard elapsed =>
    rw [keyboardStep_eq]
    exact ⟨rfl, id, id⟩
  | keyDown | snapshot | rest => exact ⟨rfl, id, id⟩

/-! ### The shutdown -/

/-- The interpreter's state is as it was, and a unit between its iterations has not started one. -/
def StartsNothing (s t : State) : Prop :=
  t.v = s.v ∧ t.i = s.i ∧ t.pc = s.pc ∧ t.stack = s.stack ∧ t.sp = s.sp ∧ t.mem = s.mem ∧ t.fb = s.fb ∧
    t.opcode = s.opcode ∧ (s.tickPhase = .idle → t.tickPhase = .idle ∧ t.dt = s.dt ∧ t.st = s.st) ∧
    (s.keyboard = .idle → t.keyboard = .idle ∧ t.key = s.key ∧ t.expiry = s.expiry)

/-- Two states that agree on the interpreter and on both units. -/
theorem StartsNothing.of_same {s t : State}
    (h : { t with dirty := s.dirty, running := s.running, keyQueue := s.keyQueue, now := s.now, outputs := s.outputs } = s) :
    StartsNothing s t :=
  ⟨(congrArg State.v h :), (congrArg State.i h :), (congrArg State.pc h :), (congrArg State.stack h :),
    (congrArg State.sp h :), (congrArg State.mem h :), (congrArg State.fb h :), (congrArg State.opcode h :),
    fun hidle => ⟨(congrArg State.tickPhase h :).trans hidle, (congrArg State.dt h :), (congrArg State.st h :)⟩,
    fun hidle => ⟨(congrArg State.keyboard h :).trans hidle, (congrArg State.key h :), (congrArg State.expiry h :)⟩⟩

/-- With `running` 0 no cycle is among the steps, and a unit between its iterations rests. -/
theorem AgentStep.startsNothing {u t : State} (h : AgentStep u t) (hr : u.running = false) : StartsNothing u t := by
  cases h with
  | instr i op hr' => exact absurd (hr.symm.trans hr') (by decide)
  | fail op hr' => exact absurd (hr.symm.trans hr') (by decide)
  | handshake => exact .of_same (by rw [handshake_eq])
  | timer =>
    by_cases hidle : u.tickPhase = .idle
    · rw [timerStep_of_stopped hidle hr]
      exact .of_same rfl
    · rw [timerStep_eq]
      exact ⟨rfl, rfl, rfl, rfl, rfl, rfl, rfl, rfl, fun h => absurd h hidle, fun h => ⟨h, rfl, rfl⟩⟩
  | keyboard elapsed =>
    by_cases hidle : u.keyboard = .idle
    · rw [keyboardStep_stopped hidle hr]
      exact .of_same rfl
    · rw [keyboardStep_eq]
      exact ⟨rfl, rfl, rfl, rfl, rfl, rfl, rfl, rfl, fun h => ⟨h, rfl, rfl⟩, fun h => absurd h hidle⟩
  | stop | keyDown | snapshot | rest => exact .of_same rfl

/-- Settles O48: the steps of a stopped block, and at rest the wind-down has no branch left to take. -/
theorem shutdownStartsNothing : Obligations.ShutdownStartsNothing := by
  refine ⟨fun s hf hr hh => ?_, fun s t hr h => (step_next h).startsNothing hr, fun s hf hr hd htick hkeys => ?_⟩
  · simp [schedulerTurn, hf, hr, hh, State.stopRunning]
  · simp [schedulerTurn, windDown, hf, hr, hd, htick, hkeys]

/-! ### The keys and the invariant -/

/-- The invariant does not speak of the order to come. -/
theorem State.Inv.of_order {s : State} (h : s.Inv) (l : List Event) (src : Source) :
    { s with schedule := l, source := src }.Inv :=
  ⟨h.mem_wf, h.sp_legal, h.key_iff_deadline, h.now_pos, h.deadline_near, h.halted_clean⟩

/-- What a step does to one key: nothing; a press, which makes its deadline 100 ms ahead; or a release, of a key whose
deadline the time has reached. -/
inductive KeyStep (u t : State) (k : Key) : Prop
  | same (h : t.keyCell k = u.keyCell k)
  | pressed (h : t.keyCell k = (true, t.now + Config.keyHold))
  | released (h : t.keyCell k = (false, 0)) (due : u.expiry[k] ≤ t.now)

theorem keyCell_congr {u t : State} (hkey : t.key = u.key) (hexpiry : t.expiry = u.expiry) (k : Key) :
    t.keyCell k = u.keyCell k := by
  rw [State.keyCell, hkey, hexpiry, State.keyCell]

theorem keyCell_eq_of_set {u t : State} {j k : Key} {b : Bool} {d : Nat} (hkey : t.key = u.key.set j b)
    (hexpiry : t.expiry = u.expiry.set j d) : t.keyCell k = if k = j then (b, d) else u.keyCell k := by
  rw [State.keyCell, hkey, hexpiry, getElem_set_key, getElem_set_key]
  split <;> rfl

theorem keyStep_keyboardStep (now : Nat) (u : State) (k : Key) : KeyStep u (keyboardStep now u) k := by
  obtain ⟨hkey, hexpiry⟩ | ⟨j, hkey, hexpiry⟩ | ⟨j, _, hdue, hkey, hexpiry⟩ := keyboardStep_keys now u
  · exact .same (keyCell_congr hkey hexpiry k)
  · have hcell := keyCell_eq_of_set (k := k) hkey hexpiry
    by_cases hk : k = j
    · rw [if_pos hk] at hcell
      exact .pressed (by rw [hcell, keyboardStep_now])
    · rw [if_neg hk] at hcell
      exact .same hcell
  · have hcell := keyCell_eq_of_set (k := k) hkey hexpiry
    by_cases hk : k = j
    · rw [if_pos hk] at hcell
      exact .released hcell (by rwa [hk, keyboardStep_now])
    · rw [if_neg hk] at hcell
      exact .same hcell

/-- What a step of any agent does to one key. -/
theorem AgentStep.keyStep {u t : State} (h : AgentStep u t) (k : Key) : KeyStep u t k := by
  cases h with
  | instr i op _ _ hexec =>
    have hframe := exec_latch_handshake_frame hexec
    exact .same (keyCell_congr (congrArg State.key hframe :) (congrArg State.expiry hframe :) k)
  | fail | handshake => exact .same (by rw [handshake_eq]; rfl)
  | timer => exact .same (by rw [timerStep_eq]; rfl)
  | keyboard elapsed => exact keyStep_keyboardStep _ u k
  | stop | keyDown | snapshot | rest => exact .same rfl

/-- Time never falls. -/
theorem AgentStep.now_le {u t : State} (h : AgentStep u t) : u.now ≤ t.now := by
  cases h with
  | instr i op _ _ hexec =>
    have hnow : t.now = u.now := (congrArg State.now (exec_latch_handshake_frame hexec) :)
    exact hnow.ge
  | fail | handshake => exact (handshake_now u).ge
  | timer => rw [timerStep_eq]
  | keyboard elapsed => rw [keyboardStep_now]; exact Nat.le_add_right _ _
  | stop | keyDown | snapshot | rest => exact le_rfl

/-- Settles O46: a press moves a deadline to 100 ms ahead, which the invariant says is no earlier; a release is only of a
key whose deadline the time has reached. -/
theorem pressedKeyHoldsUntilItsDeadline : Obligations.PressedKeyHoldsUntilItsDeadline := fun s t k hinv h hk hnow => by
  have hstep := step_next h
  have hnear : s.expiry[k] ≤ s.now + Config.keyHold := hinv.deadline_near k
  have hle : s.now ≤ t.now := hstep.now_le
  cases hstep.keyStep k with
  | same h =>
    obtain ⟨hkey, hexpiry⟩ := Prod.mk.inj h
    exact ⟨hkey.trans hk, hexpiry.ge⟩
  | pressed h =>
    obtain ⟨hkey, hexpiry⟩ := Prod.mk.inj h
    exact ⟨hkey, by omega⟩
  | released _ due => exact absurd hnow (not_lt.mpr due)

/-- A step keeps what the invariant says of the keys and of time. -/
theorem KeyStep.keeps_inv {u t : State} {k : Key} (h : KeyStep u t k) (hu : u.Inv) (hle : u.now ≤ t.now) :
    (t.key[k] = true ↔ t.expiry[k] ≠ 0) ∧ t.expiry[k] ≤ t.now + Config.keyHold := by
  have hnear := hu.deadline_near k
  cases h with
  | same h =>
    obtain ⟨hkey, hexpiry⟩ := Prod.mk.inj h
    rw [hkey, hexpiry]
    exact ⟨hu.key_iff_deadline k, by omega⟩
  | pressed h =>
    obtain ⟨hkey, hexpiry⟩ := Prod.mk.inj h
    rw [hkey, hexpiry]
    exact ⟨by simp, le_rfl⟩
  | released h =>
    obtain ⟨hkey, hexpiry⟩ := Prod.mk.inj h
    rw [hkey, hexpiry]
    exact ⟨by simp, Nat.zero_le _⟩

/-- The handshake is not run after a failed cycle, and otherwise leaves the flag clear. -/
theorem handshake_dirty_of_not_halted {s : State} (h : s.halted = false) : (handshake s).dirty = false := by
  cases hd : s.dirty with
  | false => rw [handshake_of_clean hd, hd]
  | true => rw [handshake_of_dirty hd h]

/-- A step keeps the rest of the invariant. -/
theorem AgentStep.keeps_mem_sp_clean {u t : State} (h : AgentStep u t) (hu : u.Inv) :
    Memory.wf t.mem ∧ t.sp.toNat ≤ 15 ∧ (t.halted = true → t.dirty = false) := by
  cases h with
  | instr i op _ hh hexec =>
    have hkeeps := exec_keeps hexec
    rw [handshake_eq] at hkeeps
    have hhalted : t.halted = u.halted := (congrArg State.halted (exec_latch_handshake_frame hexec) :)
    exact ⟨hkeeps.mem_wf hu.mem_wf, hkeeps.sp_legal hu.sp_legal,
      fun h1 => absurd (h1.symm.trans (hhalted.trans hh)) (by decide)⟩
  | fail op _ hh =>
    have hclean := handshake_dirty_of_not_halted hh
    rw [handshake_eq]
    exact ⟨hu.mem_wf, hu.sp_legal, fun _ => hclean⟩
  | handshake =>
    by_cases hh : u.halted = true
    · rw [handshake_of_halted hh]
      exact ⟨hu.mem_wf, hu.sp_legal, hu.halted_clean⟩
    · have hclean := handshake_dirty_of_not_halted (by simpa using hh)
      rw [handshake_eq]
      exact ⟨hu.mem_wf, hu.sp_legal, fun _ => hclean⟩
  | timer =>
    rw [timerStep_eq]
    exact ⟨hu.mem_wf, hu.sp_legal, hu.halted_clean⟩
  | keyboard elapsed =>
    rw [keyboardStep_eq]
    exact ⟨hu.mem_wf, hu.sp_legal, hu.halted_clean⟩
  | stop | keyDown | snapshot | rest => exact ⟨hu.mem_wf, hu.sp_legal, hu.halted_clean⟩

/-- Settles O52: the keys and time by what a step does to one key, the rest by cases on the step. -/
theorem everyStepKeepsTheInvariant : Obligations.EveryStepKeepsTheInvariant := fun s t hs h => by
  have hstep := step_next h
  have hu := hs.of_order s.dropNext.schedule s.dropNext.source
  have hkeys : ∀ k : Key, (t.key[k] = true ↔ t.expiry[k] ≠ 0) ∧ t.expiry[k] ≤ t.now + Config.keyHold :=
    fun k => (hstep.keyStep k).keeps_inv hu hstep.now_le
  obtain ⟨hmem, hsp, hclean⟩ := hstep.keeps_mem_sp_clean hu
  exact ⟨hmem, hsp, fun k => (hkeys k).1, lt_of_lt_of_le hs.now_pos hstep.now_le, fun k => (hkeys k).2, hclean⟩

end Sys2Proof.Machine
end
